-- ==== Sys2Proof/Word.lean ====
section
/-! DEFINITION. The word and byte types of spec/00_scope.md rules R6 and R8, and the machine's fixed sizes. -/

namespace Sys2Proof

/-- A 32-bit word: an instruction, a RAM word, a register value (rules R6, R8). -/
abbrev Word := BitVec 32

/-- An 8-bit byte: an operand byte, a port, `sr`, `intr` (rule R6). -/
abbrev Byte := BitVec 8

/-- A general register index 0 to 255 (rules R31, R106). -/
abbrev RegIndex := BitVec 8

/-- A port number, one operand byte (rules R72, R108). -/
abbrev PortIndex := BitVec 8

/-- The 24-bit target field (rule R104). -/
abbrev Address24 := BitVec 24

/-- The 16-bit immediate field (rule R107). -/
abbrev Imm16 := BitVec 16

/-- `RAM_WORDS`: RAM has exactly 1024 words (rules R6, R41). -/
abbrev ramWords : Nat := 1024

/-- `NUM_REGS`: 256 general registers (rules R6, R31). -/
abbrev numRegs : Nat := 256

end Sys2Proof
end

