-- ==== Sys2Proof/Config.lean ====
section
/-! DEFINITION. The parameters of spec/00_scope.md rule R6 that an instance of the block fixes, and the one
free value of the model (the input ports' contents at reset). -/

namespace Sys2Proof

/-- `REG_RESET` (rule R32, decision D11): what a general register cell holds after reset. -/
inductive RegReset where
  | unwritten
  | zero
  deriving DecidableEq, Repr

/-- `EXEC_PROFILE` (rule R5, decision D2). -/
inductive ExecProfile where
  | isa
  | sourceLiteral
  deriving DecidableEq, Repr

/-- `SHIFT_MODE` (rule R227, decision D24). -/
inductive ShiftMode where
  | saturate
  | mask5
  deriving DecidableEq, Repr

/-- `IRQ_MODEL` (rule R252, decision D26). -/
inductive IrqModel where
  | absent
  | vectored
  deriving DecidableEq, Repr

/-- The parameters of rule R6, each an argument of the model: they are a field of the state (log entry 1),
fixed for a run (rule R240). -/
structure Config where
  idtLength   : Nat
  ioPorts     : Nat
  spReset     : Word
  regReset    : RegReset
  execProfile : ExecProfile
  shiftMode   : ShiftMode
  irqModel    : IrqModel
  deriving DecidableEq, Repr

/-- The defaults of rule R6. -/
def Config.specDefault : Config where
  idtLength   := 8
  ioPorts     := 8
  spReset     := 0xFFFFFFFF
  regReset    := .unwritten
  execProfile := .isa
  shiftMode   := .saturate
  irqModel    := .absent

/-- The parameters of `State.reset`: the defaults, with `REG_RESET = zero`, the value rule R32 offers beside
`unwritten`. DESIGN CHOICE, log entry 2, unsafe: the spec's default is `unwritten`. -/
def Config.atReset : Config := { Config.specDefault with regReset := .zero }

/-- FREE VALUE: what input port `p` holds at reset before the host has written it (rule R42, decision D42: "a free
input (a draw)"). Log entry 3, safe: no proof can see the value. -/
opaque Config.ioInAtReset : Nat → Byte

end Sys2Proof
end

