-- ==== Sys2Proof/Syntax.lean ====
section
/-! DEFINITION. The instructions: one constructor per row of spec/opcode_table.json, with the operand fields of
its shape (spec/30_encoding.md rules R109, R111). -/

namespace Sys2Proof

/-- The 26 instructions of rule R111, in the table's order. Every operand field has exactly the width its rule
gives it (rules R104 to R108), so every term is an instruction the decoder can produce. -/
inductive Instr where
  | nop
  | huc
  | buc (address24 : Address24)
  | bic (address24 : Address24)
  | seto (port : PortIndex) (mask : Byte) (value : Byte)
  | tsti (port : PortIndex) (mask : Byte) (value : Byte)
  | bsr (address24 : Address24)
  | rsr
  | rir
  | sei
  | cli
  | mtr (regA : RegIndex) (imm16 : Imm16)
  | rtm (regA : RegIndex) (imm16 : Imm16)
  | imtr (regA regB regC : RegIndex)
  | rtim (regA regB regC : RegIndex)
  | pshr (regA : RegIndex)
  | popr (regA : RegIndex)
  | rtio (regA : RegIndex) (port : PortIndex)
  | iotr (regA : RegIndex) (port : PortIndex)
  | ldlr (regA : RegIndex) (imm16 : Imm16)
  | ldur (regA : RegIndex) (imm16 : Imm16)
  | andr (regA regB regC : RegIndex)
  | orr (regA regB regC : RegIndex)
  | xorr (regA regB regC : RegIndex)
  | srlr (regA regB regC : RegIndex)
  | sllr (regA regB regC : RegIndex)
  deriving DecidableEq, Repr

end Sys2Proof
end

