-- ==== Sys2Proof/WellFormed.lean ====
section
/-! DEFINITION. What the spec asks of a term before the machine may use it. An instruction needs no check: its
fields have the encoding's widths and "the operand bytes have no reserved values" (spec/30_encoding.md rule R103).
The parameters (spec/00_scope.md rule R6) and a RAM image (rule R127) each need one. -/

namespace Sys2Proof

/-- Rule R103: decoding never fails for opcodes 0 to 25 whatever the operand bytes hold, so no instruction is
ill-formed; what a bad operand does (a port or address out of range) is a fault of its execution. -/
def Instr.wellFormed (_ : Instr) : Bool := true

/-- Rule R6, decision D34: `0 ≤ IDT_LENGTH ≤ RAM_WORDS`. -/
def Config.wellFormed (c : Config) : Bool := decide (c.idtLength ≤ ramWords)

/-- Rules R127 and R280: an image of more than `RAM_WORDS` words is refused by reset. -/
def imageWellFormed (image : List Word) : Bool := decide (image.length ≤ ramWords)

end Sys2Proof
end

