-- ==== Sys2Proof/Decode.lean ====
section
/-! DEFINITION. The decoder of spec/30_encoding.md: word in, instruction or `UnknownOpcode` out (rules R100 to
R114), the typed instruction with its control-flow outputs (rules R109 to R123), and the encoder, written from
the same field tables. -/

namespace Sys2Proof

/-! ### Fields of a word -/

/-- `b0`, the opcode byte: bits 31:24 (rules R8, R102). -/
def byte0 (w : Word) : Byte := w.extractLsb' 24 8

/-- `b1`, bits 23:16 (rule R8). -/
def byte1 (w : Word) : Byte := w.extractLsb' 16 8

/-- `b2`, bits 15:8 (rule R8). -/
def byte2 (w : Word) : Byte := w.extractLsb' 8 8

/-- `b3`, bits 7:0 (rule R8). -/
def byte3 (w : Word) : Byte := w.extractLsb' 0 8

/-- `address24 = word[23:0]` (rule R104). -/
def address24Of (w : Word) : Address24 := w.extractLsb' 0 24

/-- `imm16 = word[15:0]` (rule R107). -/
def imm16Of (w : Word) : Imm16 := w.extractLsb' 0 16

/-- The word of four bytes, most significant first (rule R8, "in address order"). -/
def wordOfBytes (b0 b1 b2 b3 : Byte) : Word := b0 ++ b1 ++ b2 ++ b3

/-! ### Decoding -/

/-- What the decoder refuses: `UnknownOpcode(value)` (rule R102). -/
inductive DecodeError where
  | unknownOpcode (value : Byte)
  deriving DecidableEq, Repr

/-- The decoder (rules R102, R103, R106 to R108, R111): the opcode byte selects the row, the shape names the
operand fields, and the bits a shape does not use are not looked at (rule R113). -/
def decode (w : Word) : Except DecodeError Instr :=
  match (byte0 w).toNat with
  | 0  => .ok .nop
  | 1  => .ok .huc
  | 2  => .ok (.buc (address24Of w))
  | 3  => .ok (.bic (address24Of w))
  | 4  => .ok (.seto (byte1 w) (byte2 w) (byte3 w))
  | 5  => .ok (.tsti (byte1 w) (byte2 w) (byte3 w))
  | 6  => .ok (.bsr (address24Of w))
  | 7  => .ok .rsr
  | 8  => .ok .rir
  | 9  => .ok .sei
  | 10 => .ok .cli
  | 11 => .ok (.mtr (byte1 w) (imm16Of w))
  | 12 => .ok (.rtm (byte1 w) (imm16Of w))
  | 13 => .ok (.imtr (byte1 w) (byte2 w) (byte3 w))
  | 14 => .ok (.rtim (byte1 w) (byte2 w) (byte3 w))
  | 15 => .ok (.pshr (byte1 w))
  | 16 => .ok (.popr (byte1 w))
  | 17 => .ok (.rtio (byte1 w) (byte2 w))
  | 18 => .ok (.iotr (byte1 w) (byte2 w))
  | 19 => .ok (.ldlr (byte1 w) (imm16Of w))
  | 20 => .ok (.ldur (byte1 w) (imm16Of w))
  | 21 => .ok (.andr (byte1 w) (byte2 w) (byte3 w))
  | 22 => .ok (.orr (byte1 w) (byte2 w) (byte3 w))
  | 23 => .ok (.xorr (byte1 w) (byte2 w) (byte3 w))
  | 24 => .ok (.srlr (byte1 w) (byte2 w) (byte3 w))
  | 25 => .ok (.sllr (byte1 w) (byte2 w) (byte3 w))
  | _  => .error (.unknownOpcode (byte0 w))

/-- The decoder's reading of the `nbits` low bits of `w`, every bit above them 0: an instruction is always one
32-bit word (rule R100), so bit `k` of `w` is bit `k` of that word. -/
def decodeTableWord (nbits w : Nat) : Option Instr :=
  match decode (BitVec.ofNat 32 (w % 2 ^ nbits)) with
  | .ok i    => some i
  | .error _ => none

/-! ### Encoding -/

/-- The opcode byte of an instruction (rule R111). -/
def Instr.opcode : Instr → Byte
  | .nop        => 0x00
  | .huc        => 0x01
  | .buc _      => 0x02
  | .bic _      => 0x03
  | .seto _ _ _ => 0x04
  | .tsti _ _ _ => 0x05
  | .bsr _      => 0x06
  | .rsr        => 0x07
  | .rir        => 0x08
  | .sei        => 0x09
  | .cli        => 0x0A
  | .mtr _ _    => 0x0B
  | .rtm _ _    => 0x0C
  | .imtr _ _ _ => 0x0D
  | .rtim _ _ _ => 0x0E
  | .pshr _     => 0x0F
  | .popr _     => 0x10
  | .rtio _ _   => 0x11
  | .iotr _ _   => 0x12
  | .ldlr _ _   => 0x13
  | .ldur _ _   => 0x14
  | .andr _ _ _ => 0x15
  | .orr _ _ _  => 0x16
  | .xorr _ _ _ => 0x17
  | .srlr _ _ _ => 0x18
  | .sllr _ _ _ => 0x19

/-- `word[23:0]` of an instruction (rules R104 to R109). The bits its shape ignores are 0: DESIGN CHOICE, log
entry 10, safe: no execution depends on them (rule R113). -/
def Instr.operandBits : Instr → BitVec 24
  | .nop | .huc | .rsr | .rir | .sei | .cli => 0
  | .buc t | .bic t | .bsr t => t
  | .seto p m v | .tsti p m v => p ++ m ++ v
  | .mtr a n | .rtm a n | .ldlr a n | .ldur a n => a ++ n
  | .imtr a b c | .rtim a b c | .andr a b c | .orr a b c | .xorr a b c | .srlr a b c | .sllr a b c => a ++ b ++ c
  | .pshr a | .popr a => a ++ (0 : BitVec 16)
  | .rtio a p | .iotr a p => a ++ p ++ (0 : BitVec 8)

/-- The word of an instruction: opcode byte, then the operand bytes (rule R100). -/
def encode (i : Instr) : Word := i.opcode ++ i.operandBits

/-- The bits of the word that decide which instruction it is: the opcode byte and the bits its shape uses
(rule R113 lists the others). -/
def usedMask : Instr → Word
  | .nop | .huc | .rsr | .rir | .sei | .cli => 0xFF000000
  | .pshr _ | .popr _ => 0xFFFF0000
  | .rtio _ _ | .iotr _ _ => 0xFFFFFF00
  | .buc _ | .bic _ | .bsr _ | .seto _ _ _ | .tsti _ _ _ | .mtr _ _ | .rtm _ _ | .imtr _ _ _ | .rtim _ _ _
  | .ldlr _ _ | .ldur _ _ | .andr _ _ _ | .orr _ _ _ | .xorr _ _ _ | .srlr _ _ _ | .sllr _ _ _ => 0xFFFFFFFF

/-! ### The typed instruction -/

/-- The 26 mnemonics (rules R110, R111). -/
inductive Mnemonic where
  | nop | huc | buc | bic | seto | tsti | bsr | rsr | rir | sei | cli | mtr | rtm | imtr | rtim | pshr | popr
  | rtio | iotr | ldlr | ldur | andr | orr | xorr | srlr | sllr
  deriving DecidableEq, Repr

/-- The operand shapes (rule R109). -/
inductive Operands where
  | none
  | target (address24 : Address24)
  | raw3 (port : PortIndex) (mask : Byte) (value : Byte)
  | regAddr (regA : RegIndex) (imm16 : Imm16)
  | reg3 (regA regB regC : RegIndex)
  | reg (regA : RegIndex)
  | regPort (regA : RegIndex) (port : PortIndex)
  | regImm (regA : RegIndex) (imm16 : Imm16)
  deriving DecidableEq, Repr

/-- The control kinds (rule R115). -/
inductive ControlKind where
  | fallThrough | terminate | jump | branch | call | ret | intReturn
  deriving DecidableEq, Repr

/-- The classification of a destination (rule R116): an IDT entry or a code-region entry. -/
inductive Dest where
  | idt (entry : Nat)
  | code (entry : Nat)
  deriving DecidableEq, Repr

/-- The destination kinds the resolver consumes (rule R123). -/
inductive DestKind where
  | irq | routine | generic
  deriving DecidableEq, Repr

/-- The typed instruction (rule R110), without the label and comment that rule R4 leaves out. -/
structure TypedInstr where
  address    : Nat
  opcode     : Byte
  mnemonic   : Mnemonic
  operands   : Operands
  control    : ControlKind
  successors : List Nat
  dest       : Option Dest
  deriving DecidableEq, Repr

/-- The mnemonic of an instruction (rule R111). -/
def Instr.mnemonic : Instr → Mnemonic
  | .nop        => .nop
  | .huc        => .huc
  | .buc _      => .buc
  | .bic _      => .bic
  | .seto _ _ _ => .seto
  | .tsti _ _ _ => .tsti
  | .bsr _      => .bsr
  | .rsr        => .rsr
  | .rir        => .rir
  | .sei        => .sei
  | .cli        => .cli
  | .mtr _ _    => .mtr
  | .rtm _ _    => .rtm
  | .imtr _ _ _ => .imtr
  | .rtim _ _ _ => .rtim
  | .pshr _     => .pshr
  | .popr _     => .popr
  | .rtio _ _   => .rtio
  | .iotr _ _   => .iotr
  | .ldlr _ _   => .ldlr
  | .ldur _ _   => .ldur
  | .andr _ _ _ => .andr
  | .orr _ _ _  => .orr
  | .xorr _ _ _ => .xorr
  | .srlr _ _ _ => .srlr
  | .sllr _ _ _ => .sllr

/-- The operand record of an instruction (rule R109). -/
def Instr.operands : Instr → Operands
  | .nop | .huc | .rsr | .rir | .sei | .cli => .none
  | .buc t | .bic t | .bsr t => .target t
  | .seto p m v | .tsti p m v => .raw3 p m v
  | .mtr a n | .rtm a n => .regAddr a n
  | .imtr a b c | .rtim a b c | .andr a b c | .orr a b c | .xorr a b c | .srlr a b c | .sllr a b c => .reg3 a b c
  | .pshr a | .popr a => .reg a
  | .rtio a p | .iotr a p => .regPort a p
  | .ldlr a n | .ldur a n => .regImm a n

/-- The control kind of an instruction (rule R115). -/
def Instr.control : Instr → ControlKind
  | .huc   => .terminate
  | .buc _ => .jump
  | .bic _ => .branch
  | .bsr _ => .call
  | .rsr   => .ret
  | .rir   => .intReturn
  | .nop | .seto _ _ _ | .tsti _ _ _ | .sei | .cli | .mtr _ _ | .rtm _ _ | .imtr _ _ _ | .rtim _ _ _ | .pshr _
  | .popr _ | .rtio _ _ | .iotr _ _ | .ldlr _ _ | .ldur _ _ | .andr _ _ _ | .orr _ _ _ | .xorr _ _ _
  | .srlr _ _ _ | .sllr _ _ _ => .fallThrough

/-- The target field of the `Target` shape (rules R104, R109). -/
def Operands.target? : Operands → Option Address24
  | .target t => some t
  | .none | .raw3 _ _ _ | .regAddr _ _ | .reg3 _ _ _ | .reg _ | .regPort _ _ | .regImm _ _ => Option.none

/-- `jumpTarget = address24 − IDT_LENGTH`, an integer, negative for an IDT destination (rule R105). -/
def jumpTarget (idtLength : Nat) (t : Address24) : Int := (t.toNat : Int) - (idtLength : Int)

/-- The class of a destination (rule R116). -/
def classifyDest (idtLength : Nat) (t : Address24) : Dest :=
  if t.toNat < idtLength then .idt t.toNat else .code (t.toNat - idtLength)

/-- The ordered static successors (rule R121). -/
def successorsOf (address : Nat) (kind : ControlKind) (target : Option Address24) : List Nat :=
  let jumps := match target with
    | some t => [t.toNat]
    | none   => []
  match kind with
  | .fallThrough => [address + 1]
  | .terminate   => []
  | .jump        => jumps
  | .branch      => (address + 1) :: jumps
  | .call        => jumps
  | .ret         => []
  | .intReturn   => [address + 1]

/-- The typed instruction at an address (rule R110). -/
def typedInstr (idtLength address : Nat) (i : Instr) : TypedInstr where
  address    := address
  opcode     := i.opcode
  mnemonic   := i.mnemonic
  operands   := i.operands
  control    := i.control
  successors := successorsOf address i.control i.operands.target?
  dest       := i.operands.target?.map (classifyDest idtLength)

/-- The decoder block's whole interface (rule R101): word, `IDT_LENGTH` and the word's own address in, typed
instruction or `UnknownOpcode` out. -/
def decodeTyped (w : Word) (idtLength address : Nat) : Except DecodeError TypedInstr :=
  match decode w with
  | .ok i    => .ok (typedInstr idtLength address i)
  | .error e => .error e

/-- The instruction has a control-flow edge: a successor other than the next address (rule R122). -/
def TypedInstr.hasEdge (d : TypedInstr) : Bool := d.successors.any (· != d.address + 1)

/-- The destination kind, defined for an instruction with an edge (rule R123): the IDT test comes before the call
test. -/
def TypedInstr.destKind (d : TypedInstr) : Option DestKind :=
  if d.hasEdge then
    match d.dest with
    | some (.idt _) => some .irq
    | _             => if d.mnemonic = .bsr then some .routine else some .generic
  else none

end Sys2Proof
end

