-- ==== Sys2Proof/Machine/State.lean ====
section
/-! DEFINITION. The machine's state as plain data: everything spec/10_state.md names (rules R30 to R53), the fault
codes of spec/60_exceptions.md rule R245, and the state after reset. -/

namespace Sys2Proof.Machine

/-- A general register cell: a 32-bit value or the spec's own mark `unwritten` (rule R32). -/
inductive RegCell where
  | unwritten
  | value (v : Word)
  deriving DecidableEq, Repr

/-- The mutable register fields, of which the block keeps two copies (rule R45). -/
structure Regs where
  pc    : Word
  sp    : Word
  sr    : Byte
  intr  : Byte
  sintr : Byte
  x     : Vector RegCell numRegs
  ioOut : List Byte
  deriving DecidableEq, Repr

/-- The staged RAM write `pend`: a word index and a value (rule R46). -/
structure PendingWrite where
  addr  : Nat
  value : Word
  deriving DecidableEq, Repr

/-- What the most recent tick did (rule R47). -/
inductive LastInstr where
  | none
  | instr (d : TypedInstr)
  | irqEntry (n : Nat)
  deriving DecidableEq, Repr

/-- The faults of rule R245 with the info each records. `exec` and the shared operations answer them; `step` turns
each into the sticky fault record of rule R244 and a next state (log entry 6). All are the spec's own bounds, so
each is safe: the model stops exactly where the spec says the block does. -/
inductive Fault where
  /-- Code 1, `F_FETCH_RANGE`: the fetch of `pc ≥ RAM_WORDS` raises it (rule R247). Safe. -/
  | fetchRange (pc : Nat)
  /-- Code 2, `F_ILLEGAL_OPCODE`: decoding a fetched word with an opcode byte above 25 raises it (rule R248). Safe. -/
  | illegalOpcode (opcode : Byte)
  /-- Code 3, `F_UNWRITTEN_REG`: a read of an `unwritten` cell raises it (rule R246). Safe. -/
  | unwrittenReg (index : RegIndex)
  /-- Code 4, `F_PORT_RANGE`: seto, tsti, rtio, iotr on a port `≥ IO_PORTS` raise it (rule R72). Safe. -/
  | portRange (port : PortIndex)
  /-- Code 5, `F_DATA_RANGE`: mtr, rtm, imtr, rtim on an address `≥ RAM_WORDS` raise it (rule R200). Safe. -/
  | dataRange (addr : Nat)
  /-- Code 6, `F_STACK_RANGE`: a push or pop on a slot `≥ RAM_WORDS` raises it (rules R152, R153). Safe. -/
  | stackRange (addr : Nat)
  /-- Code 7, `F_SP_WRAP`: a push with `sp = 0` or an `isa` pop with `sp = 0xFFFFFFFF` raises it (rules R152, R153).
  Safe. -/
  | spWrap (sp : Word)
  deriving DecidableEq, Repr

/-- The fault record `(code, info, pc)` of rule R44; code and info are read off the reason (`Fault.code`,
`Fault.info`). -/
structure FaultRecord where
  reason : Fault
  pc     : Word
  deriving DecidableEq, Repr

/-- Why the model answers no state. No tick and no instruction ever does: only the host's own moves. -/
inductive Refusal where
  /-- An instruction with no meaning in `exec`; no arm answers it. Safe. -/
  | notModelled (mnemonic : String)
  /-- Reset of an image of more than `RAM_WORDS` words, which rules R127 and R280 refuse. Safe. -/
  | imageTooLong (words : Nat)
  /-- The host writes an input port that does not exist (rule R72). Safe, log entry 11. -/
  | noInputPort (port : Nat)
  /-- The host drives an interrupt line that does not exist: any line under `IRQ_MODEL = absent` (rule R48), a line
  above 7 under `vectored` (rule R253). Safe, log entry 11. -/
  | noInterruptLine (line : Nat)
  deriving DecidableEq, Repr

/-- RAM as byte cells of its words: the word at index `i` is the bytes at `4 * i` to `4 * i + 3`, most significant
first (log entry 5; rule R74 makes the choice unobservable). -/
abbrev Memory := List Host.Cell

/-- The whole state: the architectural state in its two copies (rules R30, R45), RAM and the staged write (rules
R41, R46), the host's inputs (rules R42, R48), the bookkeeping (rules R44, R47) and the parameters (rule R6). -/
structure State where
  cfg        : Config
  ram        : Memory
  cur        : Regs
  nxt        : Regs
  pend       : Option PendingWrite
  ioIn       : List Byte
  irqPending : Byte
  lastInstr  : LastInstr
  fault      : Option FaultRecord
  deriving DecidableEq, Repr

/-- The register copy that reset writes under the parameters `c` (rules R53, R280), whose range is not checked here (log
entry 14). -/
def Regs.reset (c : Config) : Regs where
  pc    := BitVec.ofNat 32 c.idtLength
  sp    := c.spReset
  sr    := 0
  intr  := 0
  sintr := 0
  x     := match c.regReset with
    | .unwritten => Vector.replicate numRegs .unwritten
    | .zero      => Vector.replicate numRegs (.value 0)
  ioOut := List.replicate c.ioPorts 0

/-- The machine right after reset with the empty image (rules R53, R280), under the parameters `Config.atReset`
(log entry 2). No input port has been written by the host yet (log entry 3); no request line is raised (log entry 9). -/
def State.reset : State where
  cfg        := Config.atReset
  ram        := []
  cur        := Regs.reset Config.atReset
  nxt        := Regs.reset Config.atReset
  pend       := none
  ioIn       := (List.range Config.atReset.ioPorts).map Config.ioInAtReset
  irqPending := 0
  lastInstr  := .none
  fault      := none

end Sys2Proof.Machine
end

