-- ==== Sys2Proof/Machine/Ops.lean ====
section
/-! DEFINITION. The named operations over memory, registers and the double buffer: RAM (spec/20_memory.md), the
stack (spec/40_control.md rules R152, R153), interrupt entry and return (spec/60_exceptions.md rules R255 to R257),
and the phases of a tick (rule R242). -/

namespace Sys2Proof.Machine

/-- What an instruction or a tick answers. -/
abbrev Result := Host.Outcome State Fault Refusal

/-- Continue with the value of a checked operand, or answer its fault (rule R10: a fault ends the step). -/
def need {α : Type} (r : Except Fault α) (k : α → Result) : Result :=
  match r with
  | .ok v    => k v
  | .error f => .fault f

/-! ### Faults -/

/-- The fault codes (rule R245). -/
def Fault.code : Fault → Nat
  | .fetchRange _    => 1
  | .illegalOpcode _ => 2
  | .unwrittenReg _  => 3
  | .portRange _     => 4
  | .dataRange _     => 5
  | .stackRange _    => 6
  | .spWrap _        => 7

/-- The info a fault records (rule R245); a data address has up to 33 bits. -/
def Fault.info : Fault → Nat
  | .fetchRange pc     => pc
  | .illegalOpcode op  => op.toNat
  | .unwrittenReg i    => i.toNat
  | .portRange p       => p.toNat
  | .dataRange addr    => addr
  | .stackRange addr   => addr
  | .spWrap sp         => sp.toNat

/-! ### RAM -/

/-- One byte cell; an unlisted one reads 0, since reset pads RAM with zero words (rule R41). -/
def readByte : Memory → Nat → Byte
  | [], _ => 0
  | (k, v) :: rest, a => if k = a then v else readByte rest a

/-- Put a byte at the head of a memory, or nothing where the byte is what an unlisted address reads as. -/
def consByte (a : Nat) (v : Byte) (m : Memory) : Memory := if v = 0 then m else (a, v) :: m

/-- Write one byte cell, keeping the canonical form. -/
def writeByte : Memory → Nat → Byte → Memory
  | [], a, v => consByte a v []
  | (k, w) :: rest, a, v =>
    if a < k then consByte a v ((k, w) :: rest)
    else if a = k then consByte a v rest
    else (k, w) :: writeByte rest a v

/-- The canonical form: addresses strictly rising, no zero byte listed, every address inside the 1024 words. -/
abbrev Memory.wf (m : Memory) : Prop :=
  m.Pairwise (fun c d => c.1 < d.1) ∧ ∀ c ∈ m, c.2 ≠ 0 ∧ c.1 < 4 * ramWords

/-- The RAM word at index `i` (rule R75: every access is one whole word). -/
def readWord (m : Memory) (i : Nat) : Word :=
  wordOfBytes (readByte m (4 * i)) (readByte m (4 * i + 1)) (readByte m (4 * i + 2)) (readByte m (4 * i + 3))

/-- Write the RAM word at index `i`. -/
def writeWord (m : Memory) (i : Nat) (w : Word) : Memory :=
  writeByte (writeByte (writeByte (writeByte m (4 * i) (byte0 w)) (4 * i + 1) (byte1 w)) (4 * i + 2) (byte2 w))
    (4 * i + 3) (byte3 w)

/-- RAM with an image's words from index `i` upward (rule R280). -/
def loadImage : Nat → List Word → Memory → Memory
  | _, [], m => m
  | i, w :: rest, m => loadImage (i + 1) rest (writeWord m i w)

/-- A valid RAM address is one below `RAM_WORDS`, with no reduction; otherwise the access raises the fault its rule
names (rule R71). -/
def checkAddr (raise : Nat → Fault) (addr : Nat) : Except Fault Nat :=
  if addr < ramWords then .ok addr else .error (raise addr)

/-! ### Registers -/

/-- The cell of a general register. -/
def regCell (r : Regs) (i : RegIndex) : RegCell := r.x[i.toNat]'(i.isLt)

/-- Read `x[i]`; an `unwritten` cell raises `F_UNWRITTEN_REG` (rules R10, R246). -/
def readReg (r : Regs) (i : RegIndex) : Except Fault Word :=
  match regCell r i with
  | .value v   => .ok v
  | .unwritten => .error (.unwrittenReg i)

/-- Write `x[i]`; a write never faults (rule R246), and no register is hard-wired (rule R31). -/
def writeReg (r : Regs) (i : RegIndex) (v : Word) : Regs :=
  { r with x := r.x.set i.toNat (.value v) i.isLt }

/-! ### Ports -/

/-- What input port `p` holds (rule R42); beyond the array, which no checked access is, 0 (log entry 12). -/
def inPort (s : State) (p : PortIndex) : Byte := s.ioIn.getD p.toNat 0

/-- What output port `p` holds (rule R43). -/
def outPort (r : Regs) (p : PortIndex) : Byte := r.ioOut.getD p.toNat 0

/-- Write output port `p` (rule R43). -/
def writeOutPort (r : Regs) (p : PortIndex) (v : Byte) : Regs :=
  { r with ioOut := r.ioOut.set p.toNat v }

/-! ### The double buffer -/

/-- RAM after the staged write, if any (rule R46). -/
def applyPend (m : Memory) : Option PendingWrite → Memory
  | none   => m
  | some w => writeWord m w.addr w.value

/-- The commit phase of a tick: `nxt` into `cur`, the staged write into RAM (rules R45, R46, R242). -/
def commit (s : State) : State :=
  { s with cur := s.nxt, ram := applyPend s.ram s.pend, pend := none }

/-- Stage the register fields and the RAM write of `A'` (rule R242, phase 5). -/
def stage (r : Regs) (w : Option PendingWrite) (s : State) : State :=
  { s with nxt := r, pend := w }

/-- `pc <- pc + 1` (rule R150); modulo 2^32, which no executed instruction reaches (log entry 7). DESIGN CHOICE, safe. -/
def advance (r : Regs) : Regs := { r with pc := r.pc + 1 }

/-- The default transition (rule R150): every other field of `A'` equals `A`. -/
def fallThrough (s : State) : Result := .next (stage (advance s.cur) none s)

/-- An effect of `EXEC_PROFILE = isa`; under `source_literal` the default transition and nothing else (rules R5,
R150). -/
def underIsa (s : State) (effect : Result) : Result :=
  match s.cfg.execProfile with
  | .isa           => effect
  | .sourceLiteral => fallThrough s

/-! ### The stack -/

/-- `Push(v)` (rule R152): the registers with `sp` decremented and the write to stage. -/
def push (v : Word) (r : Regs) : Except Fault (Regs × PendingWrite) :=
  if ramWords ≤ r.sp.toNat then .error (.stackRange r.sp.toNat)
  else if r.sp = 0 then .error (.spWrap r.sp)
  else .ok ({ r with sp := r.sp - 1 }, { addr := r.sp.toNat, value := v })

/-- `Pop()` under `isa` (rule R153): pre-increment, so that it reads the slot the matching push wrote. -/
def popIsa (s : State) : Except Fault (Word × Regs) :=
  if s.cur.sp = 0xFFFFFFFF then .error (.spWrap s.cur.sp)
  else if ramWords ≤ s.cur.sp.toNat + 1 then .error (.stackRange (s.cur.sp.toNat + 1))
  else .ok (readWord s.ram (s.cur.sp.toNat + 1), { s.cur with sp := s.cur.sp + 1 })

/-- `Pop()` under `source_literal` (rule R153), as the document's §4.5 is written. -/
def popLiteral (s : State) : Except Fault (Word × Regs) :=
  if ramWords ≤ s.cur.sp.toNat then .error (.stackRange s.cur.sp.toNat)
  else .ok (readWord s.ram s.cur.sp.toNat, { s.cur with sp := s.cur.sp + 1 })

/-- `Pop()` of the configured profile (rule R153): the value and the registers with `sp` moved. -/
def pop (s : State) : Except Fault (Word × Regs) :=
  match s.cfg.execProfile with
  | .isa           => popIsa s
  | .sourceLiteral => popLiteral s

/-! ### Interrupts -/

/-- `VecMask`: lines with an IDT entry (rule R255). -/
def vecMask (idtLength : Nat) : Byte := BitVec.ofNat 8 (2 ^ min idtLength 8 - 1)

/-- `Eligible(C, irqPending)` (rule R255), on a committed state. -/
def eligible (c : State) : Byte := c.irqPending &&& c.cur.intr &&& vecMask c.cfg.idtLength

/-- The index of the lowest set bit: line 0 has the highest priority (rule R255). -/
def lowestSet (b : Byte) : Option Nat := (List.range 8).find? (fun n => b.getLsbD n)

/-- The interrupt line this tick takes, if any (rules R252, R255). -/
def takenLine (c : State) : Option Nat :=
  match c.cfg.irqModel with
  | .absent   => none
  | .vectored => lowestSet (eligible c)

/-- Taking an interrupt, `Enter(C, n)` (rule R256): push `pc`, save the mask, clear it, go to IDT entry `n`. The only
exception entry the spec describes; both profiles take it alike. -/
def enterInterrupt (n : Nat) (s : State) : Result :=
  need (push s.cur.pc s.cur) fun rw =>
    .next (stage { rw.1 with sintr := s.cur.intr, intr := 0, pc := BitVec.ofNat 32 n } (some rw.2) s)

/-- Return from interrupt (rules R160, R257): pop the address into `pc`, restore the mask. -/
def returnFromInterrupt (s : State) : Result :=
  need (popIsa s) fun vr =>
    .next (stage { vr.2 with pc := vr.1, intr := s.cur.sintr } none s)

/-! ### The phases of a tick -/

/-- The fetch of a committed state (rule R247). -/
def fetch (c : State) : Except Fault Word :=
  (checkAddr .fetchRange c.cur.pc.toNat).map (readWord c.ram)

/-- Fetch and decode (rules R242, R247, R248): the instruction at the committed `pc`, or the fault. -/
def fetchDecode (c : State) : Except Fault Instr :=
  match fetch c with
  | .error f => .error f
  | .ok w    =>
    match decode w with
    | .ok i                      => .ok i
    | .error (.unknownOpcode op) => .error (.illegalOpcode op)

/-- Record a fault on a committed state: sticky, with the committed `pc`; nothing else changes (rules R242, R244). -/
def recordFault (c : State) (f : Fault) (last : LastInstr) : State :=
  { c with fault := some { reason := f, pc := c.cur.pc }, lastInstr := last }

/-- The end of a tick (rule R242, phase 5): note what the tick did, and turn a fault into its record. -/
def finishTick (c : State) (last : LastInstr) : Result → Result
  | .next t    => .next { t with lastInstr := last }
  | .fault f   => .next (recordFault c f last)
  | .refused r => .refused r

/-- What `lastInstr` records for an instruction a committed state executes (rules R47, R110). -/
def lastOf (c : State) (i : Instr) : LastInstr :=
  .instr (typedInstr c.cfg.idtLength c.cur.pc.toNat i)

/-! ### Placing an instruction -/

/-- `s` with `w` in the RAM word the next tick fetches, ready to run it (log entry 8): the word at `nxt.pc`, or word 0
where `nxt.pc` is outside RAM; no staged write over it, no fault, no interrupt taken first. -/
def placeWord (s : State) (w : Word) : State :=
  let slot := if s.nxt.pc.toNat < ramWords then s.nxt.pc.toNat else 0
  { s with
    ram        := writeWord s.ram slot w
    nxt        := { s.nxt with pc := BitVec.ofNat 32 slot }
    pend       := s.pend.filter (fun p => p.addr != slot)
    irqPending := if (takenLine (commit s)).isSome then 0 else s.irqPending
    fault      := none }

end Sys2Proof.Machine
end

