-- ==== Sys2Proof/Machine/Flags.lean ====
section
/-! DEFINITION. Every computation of a flag, mask or port bit the spec gives: `sr.T` (spec/10_state.md rule R38),
the masked port operations (spec/41_io_and_mask.md rules R180, R181), the values of `intr` (rules R182, R183) and the
shift amounts (spec/43_immediate_logic.md rule R227). -/

namespace Sys2Proof.Machine

/-- `sr.T`, bit 0 of the status register (rule R38). -/
def flagT (sr : Byte) : Bool := sr.getLsbD 0

/-- The status register after tsti: `zext_8(t)`, bits 7:1 are 0 (rule R181, log entry 13). -/
def testResult (port mask value : Byte) : Byte := if port &&& mask = value &&& mask then 1 else 0

/-- The output port after seto: the bits of `value` inside `mask`, the old ones outside (rule R180). -/
def setBits (old mask value : Byte) : Byte := (old &&& ~~~mask) ||| (value &&& mask)

/-- `intr` after sei: every line enabled (rule R182). -/
def allLinesEnabled : Byte := 0xFF

/-- `intr` after cli: every line disabled (rule R183). -/
def allLinesDisabled : Byte := 0x00

/-- The amount a shift uses: the whole register, or its value mod 32 (rule R227). -/
def shiftAmount (mode : ShiftMode) (sh : Word) : Nat :=
  match mode with
  | .saturate => sh.toNat
  | .mask5    => sh.toNat % 32

/-- Logical right shift, zero fill, 0 from an amount of 32 on (rule R225). -/
def shiftRight (mode : ShiftMode) (b sh : Word) : Word :=
  if 32 ≤ shiftAmount mode sh then 0 else b >>> shiftAmount mode sh

/-- Left shift, bits past bit 31 lost, 0 from an amount of 32 on (rule R226). -/
def shiftLeft (mode : ShiftMode) (b sh : Word) : Word :=
  if 32 ≤ shiftAmount mode sh then 0 else b <<< shiftAmount mode sh

end Sys2Proof.Machine
end

