-- ==== Sys2Proof/Machine/Operands.lean ====
section
/-! DEFINITION. The operand forms: the effective addresses of spec/42_memory_ops.md rule R200, the target of
spec/40_control.md rule R151, ports (spec/20_memory.md rule R72) and register sources in the order their rules read
them (spec/60_exceptions.md rule R249). -/

namespace Sys2Proof.Machine

/-- The new `pc` of buc, bic and bsr: `zext_32(address24)`, never `jumpTarget` (rule R151). -/
def targetPc (t : Address24) : Word := t.setWidth 32

/-- The absolute address of mtr and rtm, `zext_32(imm16)`, checked (rule R200). -/
def absoluteAddr (n : Imm16) : Except Fault Nat := checkAddr .dataRange n.toNat

/-- The indexed address of imtr and rtim: the exact sum, not reduced mod 2^32, checked (rule R200). -/
def indexedAddr (b c : Word) : Except Fault Nat := checkAddr .dataRange (b.toNat + c.toNat)

/-- A port number below `IO_PORTS`, or `F_PORT_RANGE` (rule R72). -/
def checkPort (s : State) (p : PortIndex) : Except Fault PortIndex :=
  if p.toNat < s.cfg.ioPorts then .ok p else .error (.portRange p)

/-- The two register sources of the logic and shift instructions, `regB` checked first (rule R222). -/
def readPair (r : Regs) (b c : RegIndex) : Except Fault (Word × Word) :=
  match readReg r b with
  | .error f => .error f
  | .ok vb   =>
    match readReg r c with
    | .error f => .error f
    | .ok vc   => .ok (vb, vc)

/-- `zext_32` of a 16-bit immediate (rule R107). -/
def zeroExtend16 (n : Imm16) : Word := n.setWidth 32

/-- `zext_32` of a port value (rule R75). -/
def zeroExtend8 (v : Byte) : Word := v.setWidth 32

/-- The low 8 bits of a register, `v[7:0]` (rule R75). -/
def lowByte (v : Word) : Byte := v.setWidth 8

/-- `imm16 ++ lo`: a word with a new upper half (rule R221). -/
def withUpperHalf (n : Imm16) (v : Word) : Word := n ++ (v.setWidth 16 : BitVec 16)

end Sys2Proof.Machine
end

