-- ==== Sys2Proof/Machine/Control.lean ====
section
/-! DEFINITION. The control-transfer instructions (spec/40_control.md, opcodes 0, 1, 2, 3, 6, 7, 8). Each meaning reads
the committed state it executes from and stages `A'` (rule R242). -/

namespace Sys2Proof.Machine

/-- nop (rule R154): the default transition. -/
def execNop (s : State) : Result := fallThrough s

/-- huc (rule R155): a fall-through; the halt request is what `lastInstr` shows the host. -/
def execHuc (s : State) : Result := fallThrough s

/-- buc target (rule R156). -/
def execBuc (t : Address24) (s : State) : Result :=
  .next (stage { s.cur with pc := targetPc t } none s)

/-- bic target (rule R157): branches when `sr.T` is 1. -/
def execBic (t : Address24) (s : State) : Result :=
  underIsa s <|
    if flagT s.cur.sr then .next (stage { s.cur with pc := targetPc t } none s) else fallThrough s

/-- bsr target (rule R158), both profiles: push `pc + 1`, then jump. -/
def execBsr (t : Address24) (s : State) : Result :=
  need (push (s.cur.pc + 1) s.cur) fun rw =>
    .next (stage { rw.1 with pc := targetPc t } (some rw.2) s)

/-- rsr (rule R159): pop into `pc`, with the profile's pop. -/
def execRsr (s : State) : Result :=
  need (pop s) fun vr => .next (stage { vr.2 with pc := vr.1 } none s)

/-- rir (rule R160): the return from interrupt. -/
def execRir (s : State) : Result := underIsa s (returnFromInterrupt s)

end Sys2Proof.Machine
end

