-- ==== Sys2Proof/Machine/ImmediateLogic.lean ====
section
/-! DEFINITION. The immediate-load, logic and shift instructions (spec/43_immediate_logic.md, opcodes 19 to 25). None
of them writes `sr`. -/

namespace Sys2Proof.Machine

/-- The shared form of rules R222 to R226: read `x[regB]` and `x[regC]`, write `x[regA]`, advance. -/
def binaryOp (f : Word → Word → Word) (a b c : RegIndex) (s : State) : Result :=
  underIsa s <|
    need (readPair s.cur b c) fun bc =>
      .next (stage (advance (writeReg s.cur a (f bc.1 bc.2))) none s)

/-- ldlr regA, imm16 (rule R220). -/
def execLdlr (a : RegIndex) (n : Imm16) (s : State) : Result :=
  underIsa s (.next (stage (advance (writeReg s.cur a (zeroExtend16 n))) none s))

/-- ldur regA, imm16 (rule R221): keeps the lower half, so it reads the register first. -/
def execLdur (a : RegIndex) (n : Imm16) (s : State) : Result :=
  underIsa s <|
    need (readReg s.cur a) fun v =>
      .next (stage (advance (writeReg s.cur a (withUpperHalf n v))) none s)

/-- andr regA, regB, regC (rule R222). -/
def execAndr (a b c : RegIndex) (s : State) : Result := binaryOp (· &&& ·) a b c s

/-- orr regA, regB, regC (rule R223). -/
def execOrr (a b c : RegIndex) (s : State) : Result := binaryOp (· ||| ·) a b c s

/-- xorr regA, regB, regC (rule R224). -/
def execXorr (a b c : RegIndex) (s : State) : Result := binaryOp (· ^^^ ·) a b c s

/-- srlr regA, regB, regC (rules R225, R227). -/
def execSrlr (a b c : RegIndex) (s : State) : Result := binaryOp (shiftRight s.cfg.shiftMode) a b c s

/-- sllr regA, regB, regC (rules R226, R227). -/
def execSllr (a b c : RegIndex) (s : State) : Result := binaryOp (shiftLeft s.cfg.shiftMode) a b c s

end Sys2Proof.Machine
end

