-- ==== Sys2Proof/Machine/IoMask.lean ====
section
/-! DEFINITION. The I/O port and interrupt-mask instructions (spec/41_io_and_mask.md, opcodes 4, 5, 9, 10, 17, 18). -/

namespace Sys2Proof.Machine

/-- seto port, mask, value (rule R180). -/
def execSeto (p : PortIndex) (mask value : Byte) (s : State) : Result :=
  underIsa s <|
    need (checkPort s p) fun p =>
      .next (stage (advance (writeOutPort s.cur p (setBits (outPort s.cur p) mask value))) none s)

/-- tsti port, mask, value (rule R181). -/
def execTsti (p : PortIndex) (mask value : Byte) (s : State) : Result :=
  underIsa s <|
    need (checkPort s p) fun p =>
      .next (stage (advance { s.cur with sr := testResult (inPort s p) mask value }) none s)

/-- sei (rule R182). -/
def execSei (s : State) : Result :=
  underIsa s (.next (stage (advance { s.cur with intr := allLinesEnabled }) none s))

/-- cli (rule R183). -/
def execCli (s : State) : Result :=
  underIsa s (.next (stage (advance { s.cur with intr := allLinesDisabled }) none s))

/-- rtio port, regA (rule R184): the register is checked before the port. -/
def execRtio (a : RegIndex) (p : PortIndex) (s : State) : Result :=
  underIsa s <|
    need (readReg s.cur a) fun v =>
      need (checkPort s p) fun p =>
        .next (stage (advance (writeOutPort s.cur p (lowByte v))) none s)

/-- iotr regA, port (rule R185). -/
def execIotr (a : RegIndex) (p : PortIndex) (s : State) : Result :=
  underIsa s <|
    need (checkPort s p) fun p =>
      .next (stage (advance (writeReg s.cur a (zeroExtend8 (inPort s p)))) none s)

end Sys2Proof.Machine
end

