-- ==== Sys2Proof/Machine/MemoryOps.lean ====
section
/-! DEFINITION. The memory and stack instructions (spec/42_memory_ops.md, opcodes 11 to 16). -/

namespace Sys2Proof.Machine

/-- mtr regA, address (rule R201). -/
def execMtr (a : RegIndex) (n : Imm16) (s : State) : Result :=
  underIsa s <|
    need (absoluteAddr n) fun ea =>
      .next (stage (advance (writeReg s.cur a (readWord s.ram ea))) none s)

/-- rtm regA, address (rule R202): the register is checked before the address. -/
def execRtm (a : RegIndex) (n : Imm16) (s : State) : Result :=
  underIsa s <|
    need (readReg s.cur a) fun v =>
      need (absoluteAddr n) fun ea =>
        .next (stage (advance s.cur) (some { addr := ea, value := v }) s)

/-- imtr regA, regB, regC (rule R203). -/
def execImtr (a b c : RegIndex) (s : State) : Result :=
  underIsa s <|
    need (readPair s.cur b c) fun bc =>
      need (indexedAddr bc.1 bc.2) fun ea =>
        .next (stage (advance (writeReg s.cur a (readWord s.ram ea))) none s)

/-- rtim regA, regB, regC (rule R204): the registers are checked in the order regA, regB, regC. -/
def execRtim (a b c : RegIndex) (s : State) : Result :=
  underIsa s <|
    need (readReg s.cur a) fun v =>
      need (readPair s.cur b c) fun bc =>
        need (indexedAddr bc.1 bc.2) fun ea =>
          .next (stage (advance s.cur) (some { addr := ea, value := v }) s)

/-- pshr regA (rule R205): the register is checked before the stack. -/
def execPshr (a : RegIndex) (s : State) : Result :=
  underIsa s <|
    need (readReg s.cur a) fun v =>
      need (push v s.cur) fun rw =>
        .next (stage (advance rw.1) (some rw.2) s)

/-- popr regA (rule R206). -/
def execPopr (a : RegIndex) (s : State) : Result :=
  underIsa s <|
    need (popIsa s) fun vr =>
      .next (stage (advance (writeReg vr.2 a vr.1)) none s)

end Sys2Proof.Machine
end

