-- ==== Sys2Proof/Machine/Dispatch.lean ====
section
/-! DEFINITION. The dispatch of spec/60_exceptions.md rule R243: an exhaustive match over the 26 opcodes with no
fallthrough, one arm per instruction, each one direct call of its meaning (spec/40_control.md rule R162). -/

namespace Sys2Proof.Machine

def exec (i : Instr) (s : State) : Host.Outcome State Fault Refusal :=
  match i with
  | .nop => Sys2Proof.Machine.execNop s
  | .huc => Sys2Proof.Machine.execHuc s
  | .buc t => Sys2Proof.Machine.execBuc t s
  | .bic t => Sys2Proof.Machine.execBic t s
  | .seto p m v => Sys2Proof.Machine.execSeto p m v s
  | .tsti p m v => Sys2Proof.Machine.execTsti p m v s
  | .bsr t => Sys2Proof.Machine.execBsr t s
  | .rsr => Sys2Proof.Machine.execRsr s
  | .rir => Sys2Proof.Machine.execRir s
  | .sei => Sys2Proof.Machine.execSei s
  | .cli => Sys2Proof.Machine.execCli s
  | .mtr a n => Sys2Proof.Machine.execMtr a n s
  | .rtm a n => Sys2Proof.Machine.execRtm a n s
  | .imtr a b c => Sys2Proof.Machine.execImtr a b c s
  | .rtim a b c => Sys2Proof.Machine.execRtim a b c s
  | .pshr a => Sys2Proof.Machine.execPshr a s
  | .popr a => Sys2Proof.Machine.execPopr a s
  | .rtio a p => Sys2Proof.Machine.execRtio a p s
  | .iotr a p => Sys2Proof.Machine.execIotr a p s
  | .ldlr a n => Sys2Proof.Machine.execLdlr a n s
  | .ldur a n => Sys2Proof.Machine.execLdur a n s
  | .andr a b c => Sys2Proof.Machine.execAndr a b c s
  | .orr a b c => Sys2Proof.Machine.execOrr a b c s
  | .xorr a b c => Sys2Proof.Machine.execXorr a b c s
  | .srlr a b c => Sys2Proof.Machine.execSrlr a b c s
  | .sllr a b c => Sys2Proof.Machine.execSllr a b c s

end Sys2Proof.Machine
end

