-- ==== Sys2Proof/Machine/Step.lean ====
section
/-! DEFINITION. One tick of spec/60_exceptions.md rule R242 in the double-buffered form; its phases are the operations
of Machine/Ops.lean. -/

namespace Sys2Proof.Machine

/-- Phases 2 to 5 on the committed state `c`: an eligible interrupt is entered and nothing is fetched (rule R249);
otherwise one instruction is fetched, decoded and executed. -/
def tickCommitted (c : State) : Result :=
  match takenLine c with
  | some n => finishTick c (.irqEntry n) (enterInterrupt n c)
  | none   =>
    match fetchDecode c with
    | .error f => .next (recordFault c f .none)
    | .ok i    => finishTick c (lastOf c i) (exec i c)

/-- One tick (rule R242): a faulted block is stuck (rule R244); otherwise commit, then run the committed state. The host
moves between ticks only (log entry 4); a fault is recorded in a next state (log entry 6). -/
def step (s : State) : Host.Outcome State Fault Refusal :=
  match s.fault with
  | some _ => .next s
  | none   => tickCommitted (commit s)

/-- `s` with the instruction of `nbits` bits `w` where the next tick fetches it (log entry 8): one RAM word, bits above
`nbits` zero. -/
def State.withFetchWord (s : State) (nbits w : Nat) : State := placeWord s (BitVec.ofNat 32 (w % 2 ^ nbits))

end Sys2Proof.Machine
end

