-- ==== Sys2Proof/Machine/Sequential.lean ====
section
/-! DEFINITION. The sequential view of spec/10_state.md rule R52 and spec/60_exceptions.md rule R243: the committed state
as one tuple, and the step function from it and the host's inputs to the next committed state or a fault. -/

namespace Sys2Proof.Machine

/-- The committed state `C = (ram, pc, sp, sr, intr, sintr, x, ioOut)` (rule R52). -/
structure Committed where
  ram  : Memory
  regs : Regs
  deriving DecidableEq, Repr

/-- The committed state a tick will execute from: the state after its commit phase (rule R52). -/
def committed (s : State) : Committed where
  ram  := (commit s).ram
  regs := (commit s).cur

/-- The engine state that has just committed `C`, with nothing staged and nothing recorded. -/
def ofCommitted (c : Config) (ioIn : List Byte) (irqPending : Byte) (C : Committed) : State where
  cfg        := c
  ram        := C.ram
  cur        := C.regs
  nxt        := C.regs
  pend       := none
  ioIn       := ioIn
  irqPending := irqPending
  lastInstr  := .none
  fault      := none

/-- `Step(C, ioIn, irqPending)` (rules R52, R243): `A'` with the staged write applied, or a fault. -/
def sequentialStep (c : Config) (ioIn : List Byte) (irqPending : Byte) (C : Committed) :
    Host.Outcome Committed Fault Refusal :=
  let s := ofCommitted c ioIn irqPending C
  let answer := match takenLine s with
    | some n => enterInterrupt n s
    | none   => need (fetchDecode s) fun i => exec i s
  match answer with
  | .next t    => .next (committed t)
  | .fault f   => .fault f
  | .refused r => .refused r

end Sys2Proof.Machine
end

