-- ==== Sys2Proof/Machine/HostSide.lean ====
section
/-! DEFINITION. What the host does and sees (spec/60_exceptions.md rule R240, spec/70_reset_and_hazards.md rules R280 to
R296): reset with an image, the moves between ticks, the snapshot, and the end of a run. -/

namespace Sys2Proof.Machine

/-- The input ports as the host holds them, in the number the parameters give; a port the host has not written holds
its free value (rule R42, log entries 3 and 12). -/
def fitPorts (count : Nat) (held : List Byte) : List Byte :=
  (List.range count).map fun p => held.getD p (Config.ioInAtReset p)

/-- The state after `reset(ramImage)` (rules R53, R280), for an image that fits; the host's inputs stay the host's. -/
def resetState (c : Config) (image : List Word) (ioIn : List Byte) (irqPending : Byte) : State where
  cfg        := c
  ram        := loadImage 0 image []
  cur        := Regs.reset c
  nxt        := Regs.reset c
  pend       := none
  ioIn       := fitPorts c.ioPorts ioIn
  irqPending := irqPending
  lastInstr  := .none
  fault      := none

/-- `reset(ramImage)` applied between two ticks (rules R127, R280, R282), under parameters the host chooses: an image
of more than `RAM_WORDS` words is refused and no state is produced. -/
def resetWith (c : Config) (image : List Word) (s : State) : Result :=
  if imageWellFormed image then .next (resetState c image s.ioIn s.irqPending)
  else .refused (.imageTooLong image.length)

/-- The host's moves (rule R291). Reading the snapshot and stopping change no state. -/
inductive HostMove where
  | reset (c : Config) (image : List Word)
  | tick
  | setIoIn (port : Nat) (value : Byte)
  | setIrq (line : Nat) (raised : Bool)
  deriving DecidableEq, Repr

/-- `irqPending` with line `n` set or cleared (rules R48, R254). -/
def withLine (pending : Byte) (n : Nat) (raised : Bool) : Byte :=
  if raised then pending ||| BitVec.twoPow 8 n else pending &&& ~~~(BitVec.twoPow 8 n)

/-- One move of the host (rules R84, R291). A port or line that does not exist is refused (log entry 11). -/
def hostStep (m : HostMove) (s : State) : Result :=
  match m with
  | .reset c image => resetWith c image s
  | .tick          => step s
  | .setIoIn p v   =>
    if p < s.cfg.ioPorts then .next { s with ioIn := s.ioIn.set p v } else .refused (.noInputPort p)
  | .setIrq n up   =>
    match s.cfg.irqModel with
    | .absent   => .refused (.noInterruptLine n)
    | .vectored =>
      if n < 8 then .next { s with irqPending := withLine s.irqPending n up } else .refused (.noInterruptLine n)

/-- A schedule of host moves, stopping at the first that is refused (rule R296: an observation quantifies over every
schedule). -/
def runSchedule : List HostMove → State → Result
  | [], s => .next s
  | m :: rest, s =>
    match hostStep m s with
    | .next t    => runSchedule rest t
    | .fault f   => .fault f
    | .refused r => .refused r

/-! ### The snapshot -/

/-- What the block exposes after each tick (rule R49): the committed copy, RAM without the staged write. -/
structure Snapshot where
  ram       : Memory
  pc        : Word
  sp        : Word
  sr        : Byte
  intr      : Byte
  ioIn      : List Byte
  ioOut     : List Byte
  lastInstr : LastInstr
  fault     : Option FaultRecord
  deriving DecidableEq, Repr

/-- The snapshot of a state between two ticks (rule R49). -/
def snapshot (s : State) : Snapshot where
  ram       := s.ram
  pc        := s.cur.pc
  sp        := s.cur.sp
  sr        := s.cur.sr
  intr      := s.cur.intr
  ioIn      := s.ioIn
  ioOut     := s.cur.ioOut
  lastInstr := s.lastInstr
  fault     := s.fault

/-! ### The end of a run -/

/-- The most recent tick executed a huc (rules R47, R155). -/
def observedHuc (s : State) : Bool :=
  match s.lastInstr with
  | .instr d                => decide (d.mnemonic = .huc)
  | .none | .irqEntry _     => false

/-- Where a run stands (rule R295). -/
inductive RunStatus where
  | running
  | ended
  | faulted (r : FaultRecord)
  deriving DecidableEq, Repr

/-- The status after a tick: a fault is never a successful end (rule R295). -/
def runStatus (s : State) : RunStatus :=
  match s.fault with
  | some r => .faulted r
  | none   => if observedHuc s then .ended else .running

/-- The final state of a run whose last tick gave `s`: the committed state `C` of that tick, with `pc` at the huc and
without the huc's own staged `pc + 1` (rule R295 (a)). -/
def finalState (s : State) : Committed where
  ram  := s.ram
  regs := s.cur

/-- How a run stands when its moves are used up or it has ended (rule R295). -/
inductive RunResult where
  | unfinished (s : State)
  | ended (final : Committed)
  | faulted (r : FaultRecord) (s : State)
  | refused (r : Refusal)
  deriving DecidableEq, Repr

/-- What a tick's answer makes of the run: its end, or the run goes on (rule R295). -/
def afterTick (goOn : State → RunResult) (t : State) : RunResult :=
  match runStatus t with
  | .running   => goOn t
  | .ended     => .ended (finalState t)
  | .faulted r => .faulted r t

/-- A run under a schedule of host moves (rule R296): it ends at the first tick that executes a huc or records a fault,
and the moves after that are not made (rule R295). A reset among the moves starts the run anew. No move answers a fault
(a tick records it instead, rule R242); such an answer would count as one. -/
def runUntilEnd : List HostMove → State → RunResult
  | [], s => .unfinished s
  | m :: rest, s =>
    match hostStep m s with
    | .next t    => if m = .tick then afterTick (runUntilEnd rest) t else runUntilEnd rest t
    | .fault f   => .faulted { reason := f, pc := s.nxt.pc } s
    | .refused r => .refused r

/-- A run of at most `fuel` ticks with no other host move between them (rule R295). -/
def runToEnd (fuel : Nat) (s : State) : RunResult := runUntilEnd (List.replicate fuel .tick) s

end Sys2Proof.Machine
end

