-- ==== Sys2Proof/Machine/TextFormat.lean ====
section
/-! DEFINITION. The host-side program text (spec/30_encoding.md rules R124 to R128): the word codec, the decode run with
its one fatal diagnostic, the RAM image of a text, and the spec's assembly syntax for its examples. Text is a list of
characters. -/

namespace Sys2Proof.Machine

/-- White space that trimming removes: space, tab, CR and LF (rule R124). -/
def isTextSpace (c : Char) : Bool := c = ' ' || c = '\t' || c = '\r' || c = '\n'

/-- A line without leading and trailing white space (rule R124). -/
def trimLine (line : List Char) : List Char :=
  ((line.dropWhile isTextSpace).reverse.dropWhile isTextSpace).reverse

/-- The value of one hexadecimal digit, `0-9`, `a-f` or `A-F` (rule R124). -/
def hexValue (c : Char) : Option Nat :=
  if '0' ≤ c ∧ c ≤ '9' then some (c.toNat - '0'.toNat)
  else if 'a' ≤ c ∧ c ≤ 'f' then some (c.toNat - 'a'.toNat + 10)
  else if 'A' ≤ c ∧ c ≤ 'F' then some (c.toNat - 'A'.toNat + 10)
  else none

/-- The unsigned value of hex digits, first digit most significant, from `acc` on. -/
def hexNumber : Nat → List Char → Option Nat
  | acc, [] => some acc
  | acc, c :: rest =>
    match hexValue c with
    | some d => hexNumber (16 * acc + d) rest
    | none   => none

/-- What a line of text can fail with (rules R102, R124). -/
inductive LineError where
  | malformedWord (text : List Char)
  | unknownOpcode (value : Byte)
  deriving DecidableEq, Repr

/-- The word codec (rule R124): exactly 8 hex digits after trimming, or `MalformedWord` with the text. DESIGN CHOICE, log
entry 16, safe: the text it carries is the trimmed line; the rule says only "the offending text". -/
def parseWord (line : List Char) : Except LineError Word :=
  let digits := trimLine line
  if digits.length = 8 then
    match hexNumber 0 digits with
    | some n => .ok (BitVec.ofNat 32 n)
    | none   => .error (.malformedWord digits)
  else .error (.malformedWord digits)

/-- The single fatal diagnostic: the 1-based line number, blank lines counted, and the untrimmed text (rules R125,
R126). -/
structure Diagnostic where
  lineNumber : Nat
  rawText    : List Char
  error      : LineError
  deriving DecidableEq, Repr

/-- The result of a decode run (rule R125). -/
structure DecodeRun where
  instructions : List TypedInstr
  idt          : List TypedInstr
  diagnostics  : List Diagnostic
  deriving DecidableEq, Repr

/-- One non-blank line at an address: parse, then decode (rule R125). -/
def decodeLine (idtLength address : Nat) (line : List Char) : Except LineError TypedInstr :=
  match parseWord line with
  | .error e => .error e
  | .ok w    =>
    match decodeTyped w idtLength address with
    | .ok d                      => .ok d
    | .error (.unknownOpcode op) => .error (.unknownOpcode op)

/-- The decoded lines in address order and the diagnostic that stopped them, from line `lineNumber` and address
`address` on (rule R125: blank lines are skipped and take no address). -/
def decodeLines (idtLength : Nat) : (lineNumber address : Nat) → List (List Char) → List TypedInstr × List Diagnostic
  | _, _, [] => ([], [])
  | ln, addr, line :: rest =>
    if (trimLine line).isEmpty then decodeLines idtLength (ln + 1) addr rest
    else
      match decodeLine idtLength addr line with
      | .error e => ([], [{ lineNumber := ln, rawText := line, error := e }])
      | .ok d    =>
        let tail := decodeLines idtLength (ln + 1) (addr + 1) rest
        (d :: tail.1, tail.2)

/-- `decode(lines, idtLength)` (rule R125): the first `idtLength` non-blank lines are the IDT entries, the rest are
code, at addresses that continue after the IDT. -/
def decodeRun (lines : List (List Char)) (idtLength : Nat) : DecodeRun :=
  let all := decodeLines idtLength 1 0 lines
  { instructions := all.1.drop idtLength, idt := all.1.take idtLength, diagnostics := all.2 }

/-- The lines of a text, separated by newlines (rule R125). -/
def splitLines : List Char → List (List Char)
  | [] => [[]]
  | c :: rest =>
    match splitLines rest with
    | []            => [[c]]
    | line :: lines => if c = '\n' then [] :: line :: lines else (c :: line) :: lines

/-- The non-blank lines of a text (rule R125). -/
def nonBlank (lines : List (List Char)) : List (List Char) := lines.filter fun l => !(trimLine l).isEmpty

/-- The RAM image of a text (rule R127): the words of its non-blank lines in order; opcodes are not looked at. DESIGN
CHOICE, log entry 17, safe: a text with a malformed line gives that line's error and no image, not the words before it. -/
def imageOfLines : List (List Char) → Except LineError (List Word)
  | [] => .ok []
  | line :: rest =>
    if (trimLine line).isEmpty then imageOfLines rest
    else
      match parseWord line with
      | .error e => .error e
      | .ok w    =>
        match imageOfLines rest with
        | .error e => .error e
        | .ok ws   => .ok (w :: ws)

/-! ### Writing text -/

/-- One hex digit of a number below 16. -/
def hexDigit (n : Nat) : Char := if n < 10 then Char.ofNat (n + 48) else Char.ofNat (n + 55)

/-- `count` hex digits of a number, most significant first. -/
def hexDigits : (count n : Nat) → List Char
  | 0, _ => []
  | count + 1, n => hexDigits count (n / 16) ++ [hexDigit (n % 16)]

/-- The canonical text form of a word: 8 hex digits (rule R124). -/
def wordText (w : Word) : List Char := hexDigits 8 w.toNat

/-- `0x` and hex digits (rule R128). -/
def hexText (count n : Nat) : List Char := '0' :: 'x' :: hexDigits count n

/-- A decimal number below 256, as registers and ports are numbered (rule R128). -/
def decimalByte (n : Byte) : List Char :=
  let digit (d : Nat) : Char := Char.ofNat (d + 48)
  let k := n.toNat
  if k < 10 then [digit k]
  else if k < 100 then [digit (k / 10), digit (k % 10)]
  else [digit (k / 100), digit (k / 10 % 10), digit (k % 10)]

/-- The mnemonics as the table spells them (rule R111). -/
def mnemonicText : Mnemonic → List Char
  | .nop  => ['n', 'o', 'p']
  | .huc  => ['h', 'u', 'c']
  | .buc  => ['b', 'u', 'c']
  | .bic  => ['b', 'i', 'c']
  | .seto => ['s', 'e', 't', 'o']
  | .tsti => ['t', 's', 't', 'i']
  | .bsr  => ['b', 's', 'r']
  | .rsr  => ['r', 's', 'r']
  | .rir  => ['r', 'i', 'r']
  | .sei  => ['s', 'e', 'i']
  | .cli  => ['c', 'l', 'i']
  | .mtr  => ['m', 't', 'r']
  | .rtm  => ['r', 't', 'm']
  | .imtr => ['i', 'm', 't', 'r']
  | .rtim => ['r', 't', 'i', 'm']
  | .pshr => ['p', 's', 'h', 'r']
  | .popr => ['p', 'o', 'p', 'r']
  | .rtio => ['r', 't', 'i', 'o']
  | .iotr => ['i', 'o', 't', 'r']
  | .ldlr => ['l', 'd', 'l', 'r']
  | .ldur => ['l', 'd', 'u', 'r']
  | .andr => ['a', 'n', 'd', 'r']
  | .orr  => ['o', 'r', 'r']
  | .xorr => ['x', 'o', 'r', 'r']
  | .srlr => ['s', 'r', 'l', 'r']
  | .sllr => ['s', 'l', 'l', 'r']

/-- `r<decimal>` (rule R128). -/
def regText (r : RegIndex) : List Char := 'r' :: decimalByte r

/-- `p<decimal>` (rule R128). -/
def portText (p : PortIndex) : List Char := 'p' :: decimalByte p

/-- The operands of an instruction in the table's order (rule R128); rtio lists its port first. Targets are written
with six digits (log entry 15). -/
def operandTexts : Instr → List (List Char)
  | .nop | .huc | .rsr | .rir | .sei | .cli => []
  | .buc t | .bic t | .bsr t => [hexText 6 t.toNat]
  | .seto p m v | .tsti p m v => [portText p, hexText 2 m.toNat, hexText 2 v.toNat]
  | .mtr a n | .rtm a n | .ldlr a n | .ldur a n => [regText a, hexText 4 n.toNat]
  | .imtr a b c | .rtim a b c | .andr a b c | .orr a b c | .xorr a b c | .srlr a b c | .sllr a b c =>
    [regText a, regText b, regText c]
  | .pshr a | .popr a => [regText a]
  | .rtio a p => [portText p, regText a]
  | .iotr a p => [regText a, portText p]

/-- An instruction in the spec's example syntax: mnemonic, then the operands separated by a comma and a space (rule
R128, decision D32). -/
def asmText (i : Instr) : List Char :=
  match operandTexts i with
  | []          => mnemonicText i.mnemonic
  | first :: more =>
    mnemonicText i.mnemonic ++ [' '] ++ first ++ (more.map fun o => [',', ' '] ++ o).flatten

end Sys2Proof.Machine
end

