-- ==== Sys2Proof/Safety.lean ====
section
/-! DEFINITION. The terms the claims are stated in: the invariant of every run, what one instruction may change, and a
safe run. -/

namespace Sys2Proof.Safety

open Sys2Proof.Machine (State Regs RegCell Memory FaultRecord HostMove regCell readByte commit runUntilEnd)

/-- What holds of each register copy in every run: reserved `sr` bits are 0 (spec/10_state.md rule R38); the masks are
all lines or none, since only sei, cli, rir and interrupt entry write them (rules R39, R40); there are `IO_PORTS` output
ports (rule R43); `sintr` is written by interrupt entry only (rule R40); no cell is `unwritten` under `REG_RESET = zero`
(rule R32); `sr` stays 0 under `source_literal` (rule R38). -/
structure RegsInv (c : Config) (r : Regs) : Prop where
  sr_reserved     : r.sr = 0 ∨ r.sr = 1
  intr_mask       : r.intr = 0 ∨ r.intr = 0xFF
  sintr_mask      : r.sintr = 0 ∨ r.sintr = 0xFF
  ports           : r.ioOut.length = c.ioPorts
  sintr_unused    : c.irqModel = .absent → r.sintr = 0
  all_written     : c.regReset = .zero → ∀ i, regCell r i ≠ .unwritten
  literal_sr      : c.execProfile = .sourceLiteral → r.sr = 0

/-- The invariant of the block: canonical RAM of 1024 words, a staged write inside it (rule R46), the register copies
as above, `IO_PORTS` input ports (rule R42), and a recorded fault that is precise (spec/60_exceptions.md rule R244). -/
structure BlockInv (s : State) : Prop where
  ram     : Memory.wf s.ram
  pend    : ∀ w, s.pend = some w → w.addr < ramWords
  cur     : RegsInv s.cfg s.cur
  nxt     : RegsInv s.cfg s.nxt
  inputs  : s.ioIn.length = s.cfg.ioPorts
  precise : ∀ r, s.fault = some r → s.nxt = s.cur ∧ s.pend = none ∧ r.pc = s.cur.pc

/-- What `exec` never writes: the parameters, RAM itself (a write is staged), the committed copy, the host's inputs and
the bookkeeping (spec/10_state.md rules R45, R46). -/
structure OnlyStages (s t : State) : Prop where
  cfg        : t.cfg = s.cfg
  ram        : t.ram = s.ram
  cur        : t.cur = s.cur
  ioIn       : t.ioIn = s.ioIn
  irqPending : t.irqPending = s.irqPending
  lastInstr  : t.lastInstr = s.lastInstr
  fault      : t.fault = s.fault

/-- The special registers and the output ports, for naming what a frame leaves open. -/
inductive Special where
  | sp | sr | intr | sintr | ioOut
  deriving DecidableEq, Repr

/-- The frame of an instruction from the committed state `s` to `t`: every special register but those in `specials`,
every general register but those in `regs`, and every byte of RAM, as the next commit leaves it, but those of the words
in `slots`, are unchanged. The program counter is left open; `OnlyStages` says what no instruction writes. -/
structure Frame (specials : List Special) (regs : List RegIndex) (slots : List Nat) (s t : State) : Prop where
  sp    : Special.sp ∉ specials → t.nxt.sp = s.cur.sp
  sr    : Special.sr ∉ specials → t.nxt.sr = s.cur.sr
  intr  : Special.intr ∉ specials → t.nxt.intr = s.cur.intr
  sintr : Special.sintr ∉ specials → t.nxt.sintr = s.cur.sintr
  ioOut : Special.ioOut ∉ specials → t.nxt.ioOut = s.cur.ioOut
  x     : ∀ i, i ∉ regs → regCell t.nxt i = regCell s.cur i
  mem   : ∀ a, a / 4 ∉ slots → readByte (commit t).ram a = readByte s.ram a

/-- Output ports other than `p` are unchanged, and there are as many as before. -/
def OtherPorts (p : PortIndex) (r r' : Regs) : Prop :=
  r'.ioOut.length = r.ioOut.length ∧ ∀ n : Nat, n ≠ p.toNat → r'.ioOut[n]? = r.ioOut[n]?

/-- A run of `k` ticks from `s` in which the block records no fault (spec/70_reset_and_hazards.md rule R295: a faulted
run is never a successful end). -/
def SafeRun (k : Nat) (s : State) : Prop :=
  ∀ n ≤ k, ∃ t, Host.Core.run Sys2Proof.core n s = .next t ∧ (t : State).fault = none

/-- A run that never ends under an infinite schedule of host moves: an infinite execution and not a final state
(spec/70_reset_and_hazards.md rules R295, R296). -/
def RunsForever (schedule : Nat → HostMove) (s : State) : Prop :=
  ∀ n, ∃ t, runUntilEnd ((List.range n).map schedule) s = .unfinished t

end Sys2Proof.Safety
end

