-- ==== Sys2Proof/Certificates/Slice0/Obligations.lean ====
section
/-! DEFINITION. The statements for the provers, each from the spec's numbered rules. A state an instruction runs from is
a committed state (spec/10_state.md rule R52): `cur` is `A`, and the answer's `nxt` and its RAM after `commit` are `A'`. -/

open Sys2Proof
open Sys2Proof.Machine
open Sys2Proof.Safety

/-! ### The decoder -/

/-- Every instruction is what its own word decodes to, at every operand value (rules R102 to R111). -/
def Obligations.DecodeOfEncodeIsTheInstruction : Prop := ∀ i : Instr, decode (encode i) = .ok i

/-- Rule R113: two words decode to the same instruction exactly if they agree on the bits that its shape uses, and then
they have the same successors and the same typed instruction. -/
def Obligations.IgnoredBitsDoNotMatter : Prop :=
  ∀ (w w' : Word) (i : Instr), decode w = .ok i →
    ((w ^^^ w') &&& usedMask i = 0 ↔ decode w' = .ok i) ∧
    ((w ^^^ w') &&& usedMask i = 0 → ∀ idtLength address : Nat,
      decodeTyped w' idtLength address = decodeTyped w idtLength address)

/-- Rule R102 with R103: an opcode byte above 25 is refused with its value; any other gives an instruction of that
opcode, whatever the operand bytes hold. -/
def Obligations.DecodeRefusesOpcodesAbove25 : Prop :=
  ∀ w : Word,
    (25 < (byte0 w).toNat → decode w = .error (.unknownOpcode (byte0 w))) ∧
    ((byte0 w).toNat ≤ 25 → ∃ i, decode w = .ok i ∧ i.opcode = byte0 w)

/-- Words of spec/95_test_vectors.md (L1.3, L1.5, V11 to V28), one or more for each shape. -/
def Obligations.SpecWordsDecode : Prop :=
  decode 0x01FFFFFF = .ok .huc ∧ decode 0x02000036 = .ok (.buc 0x36) ∧ decode 0x03000005 = .ok (.bic 5) ∧
  decode 0x0402F0A5 = .ok (.seto 2 0xF0 0xA5) ∧ decode 0x06000033 = .ok (.bsr 0x33) ∧
  decode 0x0AFFFFFF = .ok .cli ∧ decode 0x0B020040 = .ok (.mtr 2 0x40) ∧ decode 0x0D030102 = .ok (.imtr 3 1 2) ∧
  decode 0x0F01ABCD = .ok (.pshr 1) ∧ decode 0x11020100 = .ok (.rtio 2 1) ∧ decode 0x1201FF77 = .ok (.iotr 1 0xFF) ∧
  decode 0x13011234 = .ok (.ldlr 1 0x1234) ∧ decode 0x19FFFFFF = .ok (.sllr 255 255 255) ∧
  decode 0x1A000000 = .error (.unknownOpcode 26)

/-- Rules R115, R121: the control kind and the ordered static successors of each opcode. -/
def Obligations.StaticSuccessors : Prop :=
  ∀ (idtLength a : Nat) (i : Instr),
    (i.opcode = 0 ∨ i.opcode = 4 ∨ i.opcode = 5 ∨ 9 ≤ i.opcode.toNat →
      (typedInstr idtLength a i).control = .fallThrough ∧ (typedInstr idtLength a i).successors = [a + 1]) ∧
    (i.opcode = 1 →
      (typedInstr idtLength a i).control = .terminate ∧ (typedInstr idtLength a i).successors = []) ∧
    (∀ t, i = .buc t →
      (typedInstr idtLength a i).control = .jump ∧ (typedInstr idtLength a i).successors = [t.toNat]) ∧
    (∀ t, i = .bic t →
      (typedInstr idtLength a i).control = .branch ∧ (typedInstr idtLength a i).successors = [a + 1, t.toNat]) ∧
    (∀ t, i = .bsr t →
      (typedInstr idtLength a i).control = .call ∧ (typedInstr idtLength a i).successors = [t.toNat]) ∧
    (i.opcode = 7 →
      (typedInstr idtLength a i).control = .ret ∧ (typedInstr idtLength a i).successors = []) ∧
    (i.opcode = 8 →
      (typedInstr idtLength a i).control = .intReturn ∧ (typedInstr idtLength a i).successors = [a + 1])

/-- Rules R122, R123, R116, R105: only buc, bic and bsr have an edge, unless the target is the next address; the edge's
kind is the IDT test before the call test; and a code destination is entry `jumpTarget`. -/
def Obligations.EdgesAndDestinations : Prop :=
  ∀ (idtLength a : Nat) (i : Instr),
    ((typedInstr idtLength a i).hasEdge = true ↔
      ∃ t : Address24, (i = .buc t ∨ i = .bic t ∨ i = .bsr t) ∧ t.toNat ≠ a + 1) ∧
    (∀ t : Address24, (i = .buc t ∨ i = .bic t ∨ i = .bsr t) → t.toNat ≠ a + 1 →
      (t.toNat < idtLength →
        (typedInstr idtLength a i).dest = some (.idt t.toNat) ∧ (typedInstr idtLength a i).destKind = some .irq ∧
        jumpTarget idtLength t < 0) ∧
      (idtLength ≤ t.toNat →
        (∃ n, (typedInstr idtLength a i).dest = some (.code n) ∧ jumpTarget idtLength t = (n : Int)) ∧
        (typedInstr idtLength a i).destKind = some (if i = .bsr t then .routine else .generic)))

/-! ### Program text -/

/-- Rule R124: the eight hex digits of a word, with white space around them, read back as the word; a ninth digit is
malformed. -/
def Obligations.WordTextReadsBack : Prop :=
  ∀ w : Word, parseWord (wordText w) = .ok w ∧ parseWord (' ' :: '\t' :: wordText w ++ ['\r', '\n']) = .ok w ∧
    parseWord (wordText w ++ ['0']) = .error (.malformedWord (wordText w ++ ['0']))

/-- Rules R125, R126: the decoded lines stand at addresses 0, 1, 2, ..., IDT entries first and code directly after them;
there is at most one diagnostic, and none exactly if every non-blank line was decoded; it names, by its 1-based number
with blank lines counted, and carries, as given, the first non-blank line that was not decoded, with that line's error. -/
def Obligations.DecodeRunAddresses : Prop :=
  ∀ (lines : List (List Char)) (idtLength : Nat) (decoded : List TypedInstr),
    decoded = (decodeRun lines idtLength).idt ++ (decodeRun lines idtLength).instructions →
    decoded.map (·.address) = List.range decoded.length ∧
    (decodeRun lines idtLength).idt.length ≤ idtLength ∧
    ((decodeRun lines idtLength).instructions ≠ [] → (decodeRun lines idtLength).idt.length = idtLength) ∧
    (decodeRun lines idtLength).diagnostics.length ≤ 1 ∧
    ((decodeRun lines idtLength).diagnostics = [] ↔ decoded.length = (nonBlank lines).length) ∧
    ∀ d ∈ (decodeRun lines idtLength).diagnostics,
      1 ≤ d.lineNumber ∧ lines[d.lineNumber - 1]? = some d.rawText ∧ trimLine d.rawText ≠ [] ∧
      (nonBlank (lines.take (d.lineNumber - 1))).length = decoded.length ∧
      decodeLine idtLength decoded.length d.rawText = .error d.error

/-- Rule R127: a text has the image `image` exactly if that is, one for one and in order, the words of its non-blank
lines, whatever their opcodes; and what the decode run gave address `k` is decoded from the word of the `k`-th of them,
which is word `k` of the image. That a text with a malformed line has no image is the model's choice (log entry 17). -/
def Obligations.ImageMatchesDecodeRun : Prop :=
  ∀ lines : List (List Char),
    (∀ image, imageOfLines lines = .ok image ↔ (nonBlank lines).map parseWord = image.map .ok) ∧
    ∀ (idtLength k : Nat) (d : TypedInstr),
      ((decodeRun lines idtLength).idt ++ (decodeRun lines idtLength).instructions)[k]? = some d →
      ∃ line w, (nonBlank lines)[k]? = some line ∧ parseWord line = .ok w ∧ decodeTyped w idtLength k = .ok d ∧
        ∀ image, imageOfLines lines = .ok image → image[k]? = some w

/-! ### Reset -/

/-- Rule R280: reset with an image, at any state and parameters; a longer image is refused. -/
def Obligations.ResetWritesEveryField : Prop :=
  ∀ (c : Config) (image : List Word) (s : State), c.wellFormed = true →
    (ramWords < image.length → resetWith c image s = .refused (.imageTooLong image.length)) ∧
    (image.length ≤ ramWords → ∃ t, resetWith c image s = .next t ∧
      (∀ i < ramWords, readWord t.ram i = image.getD i 0) ∧ t.cfg = c ∧
      (∀ r, r = t.cur ∨ r = t.nxt →
        r.pc.toNat = c.idtLength ∧ r.sp = c.spReset ∧ r.sr = 0 ∧ r.intr = 0 ∧ r.sintr = 0 ∧
        (∀ i, regCell r i = if c.regReset = .zero then .value 0 else .unwritten) ∧
        r.ioOut = List.replicate c.ioPorts 0) ∧
      t.pend = none ∧ t.fault = none ∧ t.lastInstr = .none)

/-- The state after reset with the empty image under the model's parameters: the spec's values of rules R53 and R280;
every general register 0 because the model chose `REG_RESET = zero` (log entry 2). -/
def Obligations.StateAfterReset : Prop :=
  State.reset.cur = State.reset.nxt ∧ State.reset.nxt.pc = 8 ∧ State.reset.nxt.sp = 0xFFFFFFFF ∧
  State.reset.nxt.sr = 0 ∧ State.reset.nxt.intr = 0 ∧ State.reset.nxt.sintr = 0 ∧
  (∀ i, regCell State.reset.nxt i = .value 0) ∧ State.reset.nxt.ioOut = List.replicate 8 0 ∧
  State.reset.ioIn.length = 8 ∧ (∀ i, readWord State.reset.ram i = 0) ∧ State.reset.pend = none ∧
  State.reset.fault = none ∧ State.reset.lastInstr = .none

/-- The invariant holds right after reset. -/
def Obligations.ResetMeetsInvariant : Prop := BlockInv State.reset

/-- The invariant holds after reset with any image, under any parameters, from any state (rule R282). -/
def Obligations.ResetWithImageMeetsInvariant : Prop :=
  ∀ (c : Config) (image : List Word) (s t : State), resetWith c image s = .next t → BlockInv t

/-! ### The tick -/

/-- A tick of an unfaulted block that takes no interrupt and fetches a word of the table is that instruction executed
on the committed state; a next state gets `lastInstr`, a fault becomes the sticky record (rule R242). -/
def Obligations.StepRunsTheDecodedInstruction : Prop :=
  ∀ (s : State) (i : Instr), s.fault = none → takenLine (commit s) = none → s.nxt.pc.toNat < ramWords →
    decode (readWord (commit s).ram s.nxt.pc.toNat) = .ok i →
    (∀ t, exec i (commit s) = .next t →
      step s = .next { t with lastInstr := .instr (typedInstr s.cfg.idtLength s.nxt.pc.toNat i) }) ∧
    (∀ f, exec i (commit s) = .fault f →
      step s = .next { commit s with
        fault := some { reason := f, pc := s.nxt.pc }
        lastInstr := .instr (typedInstr s.cfg.idtLength s.nxt.pc.toNat i) })

/-- Rule R243: a tick is total; it always gives a next state, and no instruction is refused. -/
def Obligations.EveryTickGivesANextState : Prop :=
  (∀ s : State, ∃ t, step s = .next t) ∧ ∀ (i : Instr) (s : State) (r : Refusal), exec i s ≠ .refused r

/-- Rules R247, R248, R249: `pc ≥ RAM_WORDS` at the fetch faults with code 1 and info `pc`; a fetched word with an
opcode byte above 25 faults with code 2 and that byte; `lastInstr` is none and nothing else changes. -/
def Obligations.FetchAndDecodeFaults : Prop :=
  ∀ s : State, s.fault = none → takenLine (commit s) = none →
    (ramWords ≤ s.nxt.pc.toNat →
      ∃ t r, step s = .next t ∧ t = { commit s with fault := some r, lastInstr := .none } ∧ r.pc = s.nxt.pc ∧
        r.reason.code = 1 ∧ r.reason.info = s.nxt.pc.toNat) ∧
    (s.nxt.pc.toNat < ramWords → 25 < (byte0 (readWord (commit s).ram s.nxt.pc.toNat)).toNat →
      ∃ t r, step s = .next t ∧ t = { commit s with fault := some r, lastInstr := .none } ∧ r.pc = s.nxt.pc ∧
        r.reason.code = 2 ∧ r.reason.info = (byte0 (readWord (commit s).ram s.nxt.pc.toNat)).toNat)

/-- Rule R244: a fault is precise (nothing of the committed state changes, nothing is staged, its `pc` is recorded), and
every later tick does nothing. -/
def Obligations.FaultsArePreciseAndSticky : Prop :=
  ∀ (s t : State) (r : FaultRecord), s.fault = none → step s = .next t → t.fault = some r →
    t.cur = s.nxt ∧ t.nxt = s.nxt ∧ t.pend = none ∧ t.ram = (commit s).ram ∧ t.ioIn = s.ioIn ∧
    t.irqPending = s.irqPending ∧ t.cfg = s.cfg ∧ r.pc = s.nxt.pc ∧ step t = .next t

/-- Rules R44, R47, R244: no instruction can read or clear `fault` or `lastInstr`: with other values in them it answers
the same, and leaves them as they were. -/
def Obligations.ProgramsCannotSeeTheFaultRecord : Prop :=
  ∀ (i : Instr) (s : State) (f : Option FaultRecord) (l : LastInstr),
    (∀ t, exec i s = .next t →
      exec i { s with fault := f, lastInstr := l } = .next { t with fault := f, lastInstr := l }) ∧
    (∀ g, exec i s = .fault g → exec i { s with fault := f, lastInstr := l } = .fault g)

/-- Rule R42: only tsti and iotr read the input ports; what any other instruction does is the same whatever the host
holds there. -/
def Obligations.OnlyTstiAndIotrReadInputs : Prop :=
  ∀ (i : Instr) (s : State) (inputs : List Byte),
    (∀ p m v, i ≠ .tsti p m v) → (∀ a p, i ≠ .iotr a p) →
    (∀ t, exec i s = .next t → exec i { s with ioIn := inputs } = .next { t with ioIn := inputs }) ∧
    (∀ g, exec i s = .fault g → exec i { s with ioIn := inputs } = .fault g)

/-- The invariant of the block is kept by every tick, from every state that meets it. -/
def Obligations.EveryTickKeepsTheInvariant : Prop :=
  ∀ s t : State, BlockInv s → step s = .next t → BlockInv t

/-- Rule R52: the committed state of the next tick is `Step` of the committed state of this one with the inputs it read,
or the tick records the fault `Step` answers; nothing else of the engine matters. The committed state of the first tick
after reset is the reset state. -/
def Obligations.EngineRefinesTheSequentialView : Prop :=
  (∀ s t : State, s.fault = none → step s = .next t →
    (t.fault = none → sequentialStep s.cfg s.ioIn s.irqPending (committed s) = .next (committed t)) ∧
    (∀ r, t.fault = some r → sequentialStep s.cfg s.ioIn s.irqPending (committed s) = .fault r.reason)) ∧
  (∀ (c : Config) (image : List Word) (s t : State), resetWith c image s = .next t →
    committed t = { ram := t.ram, regs := t.cur })

/-- Rules R49, R287: after a tick the snapshot shows the committed state that the tick executed from, at the address of
the instruction it names. -/
def Obligations.SnapshotShowsTheCommittedState : Prop :=
  ∀ s t : State, s.fault = none → step s = .next t →
    (snapshot t).ram = (commit s).ram ∧ (snapshot t).pc = s.nxt.pc ∧ (snapshot t).sp = s.nxt.sp ∧
    (snapshot t).sr = s.nxt.sr ∧ (snapshot t).intr = s.nxt.intr ∧ (snapshot t).ioOut = s.nxt.ioOut ∧
    (snapshot t).ioIn = s.ioIn ∧
    ∀ d, (snapshot t).lastInstr = .instr d → d.address = (snapshot t).pc.toNat

/-- Rules R37 to R40, R43, R186, R207: the instructions that can change each special register, the output ports and RAM;
no other instruction does. -/
def Obligations.WhoWritesWhat : Prop :=
  ∀ (i : Instr) (s t : State), exec i s = .next t →
    (t.nxt.sp ≠ s.cur.sp → (∃ a, i = .bsr a) ∨ i = .rsr ∨ i = .rir ∨ (∃ a, i = .pshr a) ∨ ∃ a, i = .popr a) ∧
    (t.nxt.sr ≠ s.cur.sr → ∃ p m v, i = .tsti p m v) ∧
    (t.nxt.intr ≠ s.cur.intr → i = .sei ∨ i = .cli ∨ i = .rir) ∧
    t.nxt.sintr = s.cur.sintr ∧
    (t.nxt.ioOut ≠ s.cur.ioOut → (∃ p m v, i = .seto p m v) ∨ ∃ a p, i = .rtio a p) ∧
    (t.pend ≠ none →
      (∃ a, i = .bsr a) ∨ (∃ a n, i = .rtm a n) ∨ (∃ a b c, i = .rtim a b c) ∨ ∃ a, i = .pshr a) ∧
    OnlyStages s t

/-- Rule R32: a register cell that holds a value keeps holding one, until the next reset. -/
def Obligations.WrittenRegistersStayWritten : Prop :=
  ∀ (s t : State) (i : RegIndex), step s = .next t → regCell s.nxt i ≠ .unwritten → regCell t.nxt i ≠ .unwritten

/-- Rule R295: a tick of an unfaulted block ends the run exactly if it executed a huc; it is faulted exactly if it
recorded a fault. Under every schedule of host moves a run ends at the first tick that does one of the two: at a huc with
that tick's committed state, whose `pc` is the huc's address; at a fault with the faulted state. -/
def Obligations.RunsEndAtHucOrFault : Prop :=
  (∀ s t : State, s.fault = none → step s = .next t →
    (runStatus t = .ended ↔ takenLine (commit s) = none ∧ s.nxt.pc.toNat < ramWords ∧
      decode (readWord (commit s).ram s.nxt.pc.toNat) = .ok .huc) ∧
    (∀ r, runStatus t = .faulted r ↔ t.fault = some r)) ∧
  (∀ (moves : List HostMove) (s : State) (final : Committed),
    runUntilEnd moves s = .ended final ↔
      ∃ before rest t u, moves = before ++ .tick :: rest ∧ runUntilEnd before s = .unfinished t ∧
        step t = .next u ∧ runStatus u = .ended ∧ final = committed t ∧ final.regs.pc = t.nxt.pc) ∧
  (∀ (moves : List HostMove) (s u : State) (r : FaultRecord),
    runUntilEnd moves s = .faulted r u ↔
      ∃ before rest t, moves = before ++ .tick :: rest ∧ runUntilEnd before s = .unfinished t ∧
        step t = .next u ∧ runStatus u = .faulted r)

/-- Rules R243, R244, R295: a run from an unfaulted state is safe for as many ticks as asked, or there is a first faulting
tick, whose state every longer run stays in. No host move stands between these ticks (log entry 4). -/
def Obligations.RunsAreSafeUntilTheFirstFault : Prop :=
  ∀ (k : Nat) (s : State), s.fault = none →
    SafeRun k s ∨ ∃ n < k, ∃ t : State, SafeRun n s ∧ t.fault ≠ none ∧
      ∀ m, n < m → Host.Core.run Sys2Proof.core m s = .next t

/-! ### Interrupts -/

/-- Rule R255 with R253: the line taken is the lowest that is pending, enabled and has an IDT entry; none under
`IRQ_MODEL = absent` (rule R252). -/
def Obligations.LowestEligibleLineIsTaken : Prop :=
  ∀ (c : State) (n : Nat),
    takenLine c = some n ↔
      c.cfg.irqModel = .vectored ∧ n < 8 ∧ n < c.cfg.idtLength ∧
      c.irqPending.getLsbD n = true ∧ c.cur.intr.getLsbD n = true ∧
      ∀ m < n, ¬ (c.irqPending.getLsbD m = true ∧ c.cur.intr.getLsbD m = true)

/-- Rule R256: interrupt entry, whatever stands at `pc`. -/
def Obligations.InterruptEntrySavesAndVectors : Prop :=
  ∀ (s : State) (n : Nat), s.fault = none → takenLine (commit s) = some n → Memory.wf (commit s).ram →
    s.nxt.sp.toNat < ramWords → s.nxt.sp ≠ 0 →
    ∃ t, step s = .next t ∧ t.lastInstr = .irqEntry n ∧ t.fault = none ∧ t.cfg = s.cfg ∧
      t.nxt.pc.toNat = n ∧ t.nxt.sp = s.nxt.sp - 1 ∧ t.nxt.sintr = s.nxt.intr ∧ t.nxt.intr = 0 ∧
      readWord (commit t).ram s.nxt.sp.toNat = s.nxt.pc ∧
      t.irqPending = s.irqPending ∧ t.ioIn = s.ioIn ∧
      Frame [.sp, .intr, .sintr] [] [s.nxt.sp.toNat] (commit s) t

/-- Rules R249, R256: an entry whose push fails records that fault, before any fetch; range is checked before wrap. -/
def Obligations.InterruptEntryFaults : Prop :=
  ∀ (s : State) (n : Nat), s.fault = none → takenLine (commit s) = some n →
    (ramWords ≤ s.nxt.sp.toNat → step s = .next { commit s with
      fault := some { reason := .stackRange s.nxt.sp.toNat, pc := s.nxt.pc }, lastInstr := .irqEntry n }) ∧
    (s.nxt.sp = 0 → step s = .next { commit s with
      fault := some { reason := .spWrap 0, pc := s.nxt.pc }, lastInstr := .irqEntry n })

/-- Rule R252: under `IRQ_MODEL = absent` no tick enters an interrupt, and `sintr` never changes. -/
def Obligations.AbsentModelNeverInterrupts : Prop :=
  ∀ s t : State, s.cfg.irqModel = .absent → s.fault = none → step s = .next t →
    (∀ n, t.lastInstr ≠ .irqEntry n) ∧ t.nxt.sintr = s.nxt.sintr

/-- Rules R160, R256, R257: a rir that pops the slot an entry pushed resumes at the interrupted address with the mask
and the stack pointer restored, from any handler state that kept `sintr`, that word and the depth. -/
def Obligations.RirUndoesInterruptEntry : Prop :=
  ∀ (s t u : State) (n : Nat), s.cfg.execProfile = .isa → enterInterrupt n s = .next t →
    u.cfg.execProfile = .isa → u.cur.sp = t.nxt.sp → u.cur.sintr = t.nxt.sintr →
    Memory.wf s.ram → readWord u.ram s.cur.sp.toNat = readWord (commit t).ram s.cur.sp.toNat →
    ∃ v, exec .rir u = .next v ∧ v.nxt.pc = s.cur.pc ∧ v.nxt.sp = s.cur.sp ∧ v.nxt.intr = s.cur.intr

/-! ### Host moves -/

/-- Rules R42, R48, R84, R254, R291: between ticks the host writes one input port, or (under `vectored`) sets or clears
one line of `irqPending`, and nothing else; a port that does not exist is refused (the model's choice, log entry 11). -/
def Obligations.HostInputMoves : Prop :=
  ∀ s : State,
    (∀ (p : Nat) (v : Byte), s.ioIn.length = s.cfg.ioPorts →
      (p < s.cfg.ioPorts → ∃ t, hostStep (.setIoIn p v) s = .next t ∧ t.ioIn[p]? = some v ∧
        (∀ q, q ≠ p → t.ioIn[q]? = s.ioIn[q]?) ∧ t = { s with ioIn := t.ioIn }) ∧
      (s.cfg.ioPorts ≤ p → hostStep (.setIoIn p v) s = .refused (.noInputPort p))) ∧
    (∀ (n : Nat) (raised : Bool), s.cfg.irqModel = .vectored → n < 8 →
      ∃ t, hostStep (.setIrq n raised) s = .next t ∧ t.irqPending.getLsbD n = raised ∧
        (∀ m, m ≠ n → t.irqPending.getLsbD m = s.irqPending.getLsbD m) ∧ t = { s with irqPending := t.irqPending })

/-! ### Control transfer -/

/-- Rules R150, R154, R155: nop and huc, in both profiles. -/
def Obligations.NopAndHucOnlyAdvance : Prop :=
  ∀ (i : Instr) (s : State), i = .nop ∨ i = .huc →
    ∃ t, exec i s = .next t ∧ t.nxt.pc = s.cur.pc + 1 ∧ Frame [] [] [] s t ∧ OnlyStages s t

/-- Rules R151, R156: buc, in both profiles, for every target. -/
def Obligations.BucGoesToItsTarget : Prop :=
  ∀ (target : Address24) (s : State),
    ∃ t, exec (.buc target) s = .next t ∧ t.nxt.pc.toNat = target.toNat ∧ Frame [] [] [] s t ∧ OnlyStages s t

/-- Rules R151, R157: bic under `isa` goes to its target exactly if `sr.T` is 1. -/
def Obligations.BicBranchesOnT : Prop :=
  ∀ (target : Address24) (s : State), s.cfg.execProfile = .isa →
    ∃ t, exec (.bic target) s = .next t ∧
      (s.cur.sr.getLsbD 0 = true → t.nxt.pc.toNat = target.toNat) ∧
      (s.cur.sr.getLsbD 0 = false → t.nxt.pc = s.cur.pc + 1) ∧ Frame [] [] [] s t ∧ OnlyStages s t

/-- Rules R152, R158: bsr, in both profiles, pushes `pc + 1` at `sp` and goes to its target. -/
def Obligations.BsrPushesTheReturnAddress : Prop :=
  ∀ (target : Address24) (s : State), Memory.wf s.ram → s.cur.sp.toNat < ramWords → s.cur.sp ≠ 0 →
    ∃ t, exec (.bsr target) s = .next t ∧ t.nxt.pc.toNat = target.toNat ∧ t.nxt.sp = s.cur.sp - 1 ∧
      readWord (commit t).ram s.cur.sp.toNat = s.cur.pc + 1 ∧
      Frame [.sp] [] [s.cur.sp.toNat] s t ∧ OnlyStages s t

/-- Rules R153, R159: rsr pops into `pc`: the slot above `sp` under `isa`, the slot at `sp` under `source_literal`. -/
def Obligations.RsrPopsIntoPc : Prop :=
  ∀ s : State,
    (s.cfg.execProfile = .isa → s.cur.sp.toNat + 1 < ramWords →
      ∃ t, exec .rsr s = .next t ∧ t.nxt.pc = readWord s.ram (s.cur.sp.toNat + 1) ∧
        t.nxt.sp.toNat = s.cur.sp.toNat + 1 ∧ Frame [.sp] [] [] s t ∧ OnlyStages s t) ∧
    (s.cfg.execProfile = .sourceLiteral → s.cur.sp.toNat < ramWords →
      ∃ t, exec .rsr s = .next t ∧ t.nxt.pc = readWord s.ram s.cur.sp.toNat ∧
        t.nxt.sp.toNat = s.cur.sp.toNat + 1 ∧ Frame [.sp] [] [] s t ∧ OnlyStages s t)

/-- Rules R153, R160: rir under `isa` pops into `pc` and restores the mask. -/
def Obligations.RirPopsAndRestoresTheMask : Prop :=
  ∀ s : State, s.cfg.execProfile = .isa → s.cur.sp.toNat + 1 < ramWords →
    ∃ t, exec .rir s = .next t ∧ t.nxt.pc = readWord s.ram (s.cur.sp.toNat + 1) ∧
      t.nxt.sp.toNat = s.cur.sp.toNat + 1 ∧ t.nxt.intr = s.cur.sintr ∧
      Frame [.sp, .intr] [] [] s t ∧ OnlyStages s t

/-- Rule R161: under `isa` the rsr that reaches the depth of a bsr, at any distance and with the pushed word unwritten
since, resumes after the bsr; under `source_literal` a rsr right after a bsr reads the word below the return address and
leaves `sp` as it was before the call. -/
def Obligations.RsrAfterBsr : Prop :=
  ∀ (target : Address24) (s t : State), exec (.bsr target) s = .next t →
    (s.cfg.execProfile = .isa → Memory.wf s.ram → ∀ u : State, u.cfg = s.cfg → u.cur.sp = t.nxt.sp →
      readWord u.ram s.cur.sp.toNat = readWord (commit t).ram s.cur.sp.toNat →
      ∃ v, exec .rsr u = .next v ∧ v.nxt.pc = s.cur.pc + 1 ∧ v.nxt.sp = s.cur.sp) ∧
    (s.cfg.execProfile = .sourceLiteral →
      ∃ v, exec .rsr (commit t) = .next v ∧ v.nxt.pc = readWord s.ram (s.cur.sp.toNat - 1) ∧ v.nxt.sp = s.cur.sp)

/-- Rule R150: under `source_literal` every instruction but buc, bsr and rsr is the default transition and nothing
else. -/
def Obligations.SourceLiteralIsTheDefaultTransition : Prop :=
  ∀ (i : Instr) (s : State), s.cfg.execProfile = .sourceLiteral →
    (∀ a, i ≠ .buc a) → (∀ a, i ≠ .bsr a) → i ≠ .rsr →
    ∃ t, exec i s = .next t ∧ t.nxt = { s.cur with pc := s.cur.pc + 1 } ∧ t.pend = none ∧ OnlyStages s t

/-- Rules R152, R245, R249: where bsr and pshr trap: a stack slot outside RAM, or `sp = 0`. -/
def Obligations.PushFaults : Prop :=
  ∀ (i : Instr) (s : State),
    ((∃ target, i = .bsr target) ∨ ∃ a v, i = .pshr a ∧ s.cfg.execProfile = .isa ∧ regCell s.cur a = .value v) →
    (ramWords ≤ s.cur.sp.toNat → exec i s = .fault (.stackRange s.cur.sp.toNat)) ∧
    (s.cur.sp = 0 → exec i s = .fault (.spWrap 0))

/-- Rules R153, R245, R249: where rsr, rir and popr trap under `isa` (wrap before range), and rsr under
`source_literal`. -/
def Obligations.PopFaults : Prop :=
  ∀ (i : Instr) (s : State),
    (i = .rsr ∨ i = .rir ∨ (∃ a, i = .popr a) → s.cfg.execProfile = .isa →
      (s.cur.sp = 0xFFFFFFFF → exec i s = .fault (.spWrap 0xFFFFFFFF)) ∧
      (s.cur.sp ≠ 0xFFFFFFFF → ramWords ≤ s.cur.sp.toNat + 1 → exec i s = .fault (.stackRange (s.cur.sp.toNat + 1)))) ∧
    (i = .rsr → s.cfg.execProfile = .sourceLiteral → ramWords ≤ s.cur.sp.toNat →
      exec i s = .fault (.stackRange s.cur.sp.toNat))

/-! ### I/O and masks -/

/-- Rule R180: each bit of the output port inside the mask takes the value's bit; the others stay. -/
def Obligations.SetoSetsTheMaskedBits : Prop :=
  ∀ (p : PortIndex) (mask value : Byte) (s : State), s.cfg.execProfile = .isa → p.toNat < s.cfg.ioPorts →
    s.cur.ioOut.length = s.cfg.ioPorts →
    ∃ t, exec (.seto p mask value) s = .next t ∧ t.nxt.pc = s.cur.pc + 1 ∧
      (∀ k, (outPort t.nxt p).getLsbD k =
        if mask.getLsbD k then value.getLsbD k else (outPort s.cur p).getLsbD k) ∧
      OtherPorts p s.cur t.nxt ∧ Frame [.ioOut] [] [] s t ∧ OnlyStages s t

/-- Rule R181: `sr` becomes 1 if every masked bit of the input port equals the value's, else 0. -/
def Obligations.TstiComparesTheMaskedBits : Prop :=
  ∀ (p : PortIndex) (mask value : Byte) (s : State), s.cfg.execProfile = .isa → p.toNat < s.cfg.ioPorts →
    ∃ t, exec (.tsti p mask value) s = .next t ∧ t.nxt.pc = s.cur.pc + 1 ∧
      ((∀ k, mask.getLsbD k = true → (inPort s p).getLsbD k = value.getLsbD k) → t.nxt.sr = 1) ∧
      ((∃ k, mask.getLsbD k = true ∧ (inPort s p).getLsbD k ≠ value.getLsbD k) → t.nxt.sr = 0) ∧
      Frame [.sr] [] [] s t ∧ OnlyStages s t

/-- Rules R182, R183: sei sets every enable bit, cli clears every one; `sintr` stays. -/
def Obligations.SeiAndCliWriteTheMask : Prop :=
  ∀ s : State, s.cfg.execProfile = .isa →
    (∃ t, exec .sei s = .next t ∧ t.nxt.pc = s.cur.pc + 1 ∧ t.nxt.intr = 0xFF ∧ Frame [.intr] [] [] s t ∧
      OnlyStages s t) ∧
    (∃ t, exec .cli s = .next t ∧ t.nxt.pc = s.cur.pc + 1 ∧ t.nxt.intr = 0x00 ∧ Frame [.intr] [] [] s t ∧
      OnlyStages s t)

/-- Rule R184: rtio writes the low 8 bits of the register to the output port. -/
def Obligations.RtioWritesTheLowByte : Prop :=
  ∀ (a : RegIndex) (p : PortIndex) (s : State) (v : Word), s.cfg.execProfile = .isa → p.toNat < s.cfg.ioPorts →
    s.cur.ioOut.length = s.cfg.ioPorts → regCell s.cur a = .value v →
    ∃ t, exec (.rtio a p) s = .next t ∧ t.nxt.pc = s.cur.pc + 1 ∧ (outPort t.nxt p).toNat = v.toNat % 256 ∧
      OtherPorts p s.cur t.nxt ∧ Frame [.ioOut] [] [] s t ∧ OnlyStages s t

/-- Rule R185: iotr writes the zero-extended input port to the register, written before or not. -/
def Obligations.IotrReadsTheInputPort : Prop :=
  ∀ (a : RegIndex) (p : PortIndex) (s : State), s.cfg.execProfile = .isa → p.toNat < s.cfg.ioPorts →
    ∃ t v, exec (.iotr a p) s = .next t ∧ t.nxt.pc = s.cur.pc + 1 ∧ regCell t.nxt a = .value v ∧
      v.toNat = (inPort s p).toNat ∧ Frame [] [a] [] s t ∧ OnlyStages s t

/-- Rules R72, R249: where seto, tsti, iotr and rtio trap on a port that does not exist; rtio reads its register
first. -/
def Obligations.PortFaults : Prop :=
  ∀ (p : PortIndex) (s : State), s.cfg.execProfile = .isa → s.cfg.ioPorts ≤ p.toNat →
    (∀ m v, exec (.seto p m v) s = .fault (.portRange p)) ∧ (∀ m v, exec (.tsti p m v) s = .fault (.portRange p)) ∧
    (∀ a, exec (.iotr a p) s = .fault (.portRange p)) ∧
    (∀ a, regCell s.cur a ≠ .unwritten → exec (.rtio a p) s = .fault (.portRange p)) ∧
    (∀ a, regCell s.cur a = .unwritten → exec (.rtio a p) s = .fault (.unwrittenReg a))

/-! ### Memory -/

/-- Rules R200, R201: mtr loads the word at its address. -/
def Obligations.MtrLoadsTheWord : Prop :=
  ∀ (a : RegIndex) (n : Imm16) (s : State), s.cfg.execProfile = .isa → n.toNat < ramWords →
    ∃ t, exec (.mtr a n) s = .next t ∧ t.nxt.pc = s.cur.pc + 1 ∧ regCell t.nxt a = .value (readWord s.ram n.toNat) ∧
      Frame [] [a] [] s t ∧ OnlyStages s t

/-- Rules R200, R202: rtm stages its register for the word at its address. -/
def Obligations.RtmStoresTheRegister : Prop :=
  ∀ (a : RegIndex) (n : Imm16) (s : State) (v : Word) (ea : Nat), s.cfg.execProfile = .isa → Memory.wf s.ram →
    regCell s.cur a = .value v → n.toNat < ramWords → absoluteAddr n = .ok ea →
    ∃ t, exec (.rtm a n) s = .next t ∧ t.nxt.pc = s.cur.pc + 1 ∧ ea = n.toNat ∧ readWord (commit t).ram ea = v ∧
      Frame [] [] [ea] s t ∧ OnlyStages s t

/-- Rules R11, R200, R203: imtr loads from the exact sum of the old base and index, also where the destination is one
of them. -/
def Obligations.ImtrLoadsFromTheSum : Prop :=
  ∀ (a b c : RegIndex) (s : State) (vb vc : Word), s.cfg.execProfile = .isa →
    regCell s.cur b = .value vb → regCell s.cur c = .value vc → vb.toNat + vc.toNat < ramWords →
    ∃ t, exec (.imtr a b c) s = .next t ∧ t.nxt.pc = s.cur.pc + 1 ∧
      regCell t.nxt a = .value (readWord s.ram (vb.toNat + vc.toNat)) ∧ Frame [] [a] [] s t ∧ OnlyStages s t

/-- Rules R200, R204: rtim stores its register at the exact sum of base and index. -/
def Obligations.RtimStoresAtTheSum : Prop :=
  ∀ (a b c : RegIndex) (s : State) (v vb vc : Word) (ea : Nat), s.cfg.execProfile = .isa → Memory.wf s.ram →
    regCell s.cur a = .value v → regCell s.cur b = .value vb → regCell s.cur c = .value vc →
    vb.toNat + vc.toNat < ramWords → indexedAddr vb vc = .ok ea →
    ∃ t, exec (.rtim a b c) s = .next t ∧ t.nxt.pc = s.cur.pc + 1 ∧ ea = vb.toNat + vc.toNat ∧
      readWord (commit t).ram ea = v ∧ Frame [] [] [ea] s t ∧ OnlyStages s t

/-- Rules R152, R205: pshr pushes its register. -/
def Obligations.PshrPushesTheRegister : Prop :=
  ∀ (a : RegIndex) (s : State) (v : Word), s.cfg.execProfile = .isa → Memory.wf s.ram → regCell s.cur a = .value v →
    s.cur.sp.toNat < ramWords → s.cur.sp ≠ 0 →
    ∃ t, exec (.pshr a) s = .next t ∧ t.nxt.pc = s.cur.pc + 1 ∧ t.nxt.sp = s.cur.sp - 1 ∧
      readWord (commit t).ram s.cur.sp.toNat = v ∧ Frame [.sp] [] [s.cur.sp.toNat] s t ∧ OnlyStages s t

/-- Rules R153, R206: popr pops into its register. -/
def Obligations.PoprPopsIntoTheRegister : Prop :=
  ∀ (a : RegIndex) (s : State), s.cfg.execProfile = .isa → s.cur.sp.toNat + 1 < ramWords →
    ∃ t, exec (.popr a) s = .next t ∧ t.nxt.pc = s.cur.pc + 1 ∧ t.nxt.sp.toNat = s.cur.sp.toNat + 1 ∧
      regCell t.nxt a = .value (readWord s.ram (s.cur.sp.toNat + 1)) ∧ Frame [.sp] [a] [] s t ∧ OnlyStages s t

/-- Rules R200, R249: where mtr, rtm, imtr and rtim trap on an address outside RAM, the sum never reduced, once their
registers are read. -/
def Obligations.DataAddressFaults : Prop :=
  ∀ (a b c : RegIndex) (n : Imm16) (s : State), s.cfg.execProfile = .isa →
    (ramWords ≤ n.toNat → exec (.mtr a n) s = .fault (.dataRange n.toNat) ∧
      (regCell s.cur a ≠ .unwritten → exec (.rtm a n) s = .fault (.dataRange n.toNat))) ∧
    (∀ vb vc, regCell s.cur b = .value vb → regCell s.cur c = .value vc → ramWords ≤ vb.toNat + vc.toNat →
      exec (.imtr a b c) s = .fault (.dataRange (vb.toNat + vc.toNat)) ∧
      (regCell s.cur a ≠ .unwritten → exec (.rtim a b c) s = .fault (.dataRange (vb.toNat + vc.toNat))))

/-- Rules R85, R285: a rtm to the next word is what the next tick fetches. -/
def Obligations.StoreToTheNextWordIsFetched : Prop :=
  ∀ (a : RegIndex) (n : Imm16) (s : State) (v : Word), s.cfg.execProfile = .isa → Memory.wf s.ram →
    regCell s.cur a = .value v → n.toNat = s.cur.pc.toNat + 1 → n.toNat < ramWords →
    ∃ t, exec (.rtm a n) s = .next t ∧ fetch (commit t) = .ok v

/-! ### Immediates, logic and shifts -/

/-- Rules R220, R221: ldlr writes the zero-extended immediate, whatever the register held; ldur replaces the upper half
and keeps the lower. -/
def Obligations.LdlrAndLdurLoadHalves : Prop :=
  ∀ (a : RegIndex) (n : Imm16) (s : State), s.cfg.execProfile = .isa →
    (∃ t v, exec (.ldlr a n) s = .next t ∧ t.nxt.pc = s.cur.pc + 1 ∧ regCell t.nxt a = .value v ∧
      v.toNat = n.toNat ∧ Frame [] [a] [] s t ∧ OnlyStages s t) ∧
    (∀ v, regCell s.cur a = .value v →
      ∃ t u, exec (.ldur a n) s = .next t ∧ t.nxt.pc = s.cur.pc + 1 ∧ regCell t.nxt a = .value u ∧
        u.toNat = 65536 * n.toNat + v.toNat % 65536 ∧ Frame [] [a] [] s t ∧ OnlyStages s t)

/-- Rules R222 to R224: the bitwise operations on the old values of their sources. -/
def Obligations.LogicOperations : Prop :=
  ∀ (a b c : RegIndex) (s : State) (vb vc : Word), s.cfg.execProfile = .isa →
    regCell s.cur b = .value vb → regCell s.cur c = .value vc →
    (∃ t, exec (.andr a b c) s = .next t ∧ t.nxt.pc = s.cur.pc + 1 ∧ regCell t.nxt a = .value (vb &&& vc) ∧
      Frame [] [a] [] s t ∧ OnlyStages s t) ∧
    (∃ t, exec (.orr a b c) s = .next t ∧ t.nxt.pc = s.cur.pc + 1 ∧ regCell t.nxt a = .value (vb ||| vc) ∧
      Frame [] [a] [] s t ∧ OnlyStages s t) ∧
    (∃ t, exec (.xorr a b c) s = .next t ∧ t.nxt.pc = s.cur.pc + 1 ∧ regCell t.nxt a = .value (vb ^^^ vc) ∧
      Frame [] [a] [] s t ∧ OnlyStages s t)

/-- Rules R225 to R227: each bit of a shift's result, for every amount, in both shift modes. -/
def Obligations.ShiftOperations : Prop :=
  ∀ (a b c : RegIndex) (s : State) (vb sh : Word) (amount : Nat), s.cfg.execProfile = .isa →
    regCell s.cur b = .value vb → regCell s.cur c = .value sh →
    amount = (if s.cfg.shiftMode = .mask5 then sh.toNat % 32 else sh.toNat) →
    (∃ t v, exec (.srlr a b c) s = .next t ∧ t.nxt.pc = s.cur.pc + 1 ∧ regCell t.nxt a = .value v ∧
      (∀ k < 32, v.getLsbD k = vb.getLsbD (k + amount)) ∧ Frame [] [a] [] s t ∧ OnlyStages s t) ∧
    (∃ t v, exec (.sllr a b c) s = .next t ∧ t.nxt.pc = s.cur.pc + 1 ∧ regCell t.nxt a = .value v ∧
      (∀ k < 32, v.getLsbD k = (decide (amount ≤ k) && vb.getLsbD (k - amount))) ∧
      Frame [] [a] [] s t ∧ OnlyStages s t)

/-- Rules R246, R249: a read of an `unwritten` register, in the order each rule reads them, before every other check of
the instruction. -/
def Obligations.UnwrittenRegisterFaults : Prop :=
  ∀ (a b c : RegIndex) (n : Imm16) (p : PortIndex) (s : State), s.cfg.execProfile = .isa →
    (regCell s.cur a = .unwritten →
      exec (.rtm a n) s = .fault (.unwrittenReg a) ∧ exec (.rtim a b c) s = .fault (.unwrittenReg a) ∧
      exec (.pshr a) s = .fault (.unwrittenReg a) ∧ exec (.rtio a p) s = .fault (.unwrittenReg a) ∧
      exec (.ldur a n) s = .fault (.unwrittenReg a)) ∧
    (∀ i, i = .imtr a b c ∨ i = .andr a b c ∨ i = .orr a b c ∨ i = .xorr a b c ∨ i = .srlr a b c ∨
        i = .sllr a b c ∨ (i = .rtim a b c ∧ regCell s.cur a ≠ .unwritten) →
      (regCell s.cur b = .unwritten → exec i s = .fault (.unwrittenReg b)) ∧
      (regCell s.cur b ≠ .unwritten → regCell s.cur c = .unwritten → exec i s = .fault (.unwrittenReg c)))
end

