-- ==== Sys2Proof/Laws/State.lean ====
section
/-! SUPPORT. One lemma per field per update of the state and of a register copy, so that no later proof unfolds a
record update. -/

namespace Sys2Proof.Machine

/-! ### `stage` -/
@[simp] theorem stage_cfg (r : Regs) (w : Option PendingWrite) (s : State) : (stage r w s).cfg = s.cfg := rfl
@[simp] theorem stage_ram (r : Regs) (w : Option PendingWrite) (s : State) : (stage r w s).ram = s.ram := rfl
@[simp] theorem stage_cur (r : Regs) (w : Option PendingWrite) (s : State) : (stage r w s).cur = s.cur := rfl
@[simp] theorem stage_nxt (r : Regs) (w : Option PendingWrite) (s : State) : (stage r w s).nxt = r := rfl
@[simp] theorem stage_pend (r : Regs) (w : Option PendingWrite) (s : State) : (stage r w s).pend = w := rfl
@[simp] theorem stage_ioIn (r : Regs) (w : Option PendingWrite) (s : State) : (stage r w s).ioIn = s.ioIn := rfl
@[simp] theorem stage_irqPending (r : Regs) (w : Option PendingWrite) (s : State) : (stage r w s).irqPending = s.irqPending := rfl
@[simp] theorem stage_lastInstr (r : Regs) (w : Option PendingWrite) (s : State) : (stage r w s).lastInstr = s.lastInstr := rfl
@[simp] theorem stage_fault (r : Regs) (w : Option PendingWrite) (s : State) : (stage r w s).fault = s.fault := rfl

/-! ### `commit` -/
@[simp] theorem commit_cfg (s : State) : (commit s).cfg = s.cfg := rfl
@[simp] theorem commit_ram (s : State) : (commit s).ram = applyPend s.ram s.pend := rfl
@[simp] theorem commit_cur (s : State) : (commit s).cur = s.nxt := rfl
@[simp] theorem commit_nxt (s : State) : (commit s).nxt = s.nxt := rfl
@[simp] theorem commit_pend (s : State) : (commit s).pend = none := rfl
@[simp] theorem commit_ioIn (s : State) : (commit s).ioIn = s.ioIn := rfl
@[simp] theorem commit_irqPending (s : State) : (commit s).irqPending = s.irqPending := rfl
@[simp] theorem commit_lastInstr (s : State) : (commit s).lastInstr = s.lastInstr := rfl
@[simp] theorem commit_fault (s : State) : (commit s).fault = s.fault := rfl

/-! ### `recordFault` -/
@[simp] theorem recordFault_cfg (c : State) (f : Fault) (l : LastInstr) : (recordFault c f l).cfg = c.cfg := rfl
@[simp] theorem recordFault_ram (c : State) (f : Fault) (l : LastInstr) : (recordFault c f l).ram = c.ram := rfl
@[simp] theorem recordFault_cur (c : State) (f : Fault) (l : LastInstr) : (recordFault c f l).cur = c.cur := rfl
@[simp] theorem recordFault_nxt (c : State) (f : Fault) (l : LastInstr) : (recordFault c f l).nxt = c.nxt := rfl
@[simp] theorem recordFault_pend (c : State) (f : Fault) (l : LastInstr) : (recordFault c f l).pend = c.pend := rfl
@[simp] theorem recordFault_ioIn (c : State) (f : Fault) (l : LastInstr) : (recordFault c f l).ioIn = c.ioIn := rfl
@[simp] theorem recordFault_irqPending (c : State) (f : Fault) (l : LastInstr) : (recordFault c f l).irqPending = c.irqPending := rfl
@[simp] theorem recordFault_lastInstr (c : State) (f : Fault) (l : LastInstr) : (recordFault c f l).lastInstr = l := rfl
@[simp] theorem recordFault_fault (c : State) (f : Fault) (l : LastInstr) : (recordFault c f l).fault = some { reason := f, pc := c.cur.pc } := rfl

/-! ### `advance` -/
@[simp] theorem advance_pc (r : Regs) : (advance r).pc = r.pc + 1 := rfl
@[simp] theorem advance_sp (r : Regs) : (advance r).sp = r.sp := rfl
@[simp] theorem advance_sr (r : Regs) : (advance r).sr = r.sr := rfl
@[simp] theorem advance_intr (r : Regs) : (advance r).intr = r.intr := rfl
@[simp] theorem advance_sintr (r : Regs) : (advance r).sintr = r.sintr := rfl
@[simp] theorem advance_x (r : Regs) : (advance r).x = r.x := rfl
@[simp] theorem advance_ioOut (r : Regs) : (advance r).ioOut = r.ioOut := rfl

/-! ### `writeReg` -/
@[simp] theorem writeReg_pc (r : Regs) (i : RegIndex) (v : Word) : (writeReg r i v).pc = r.pc := rfl
@[simp] theorem writeReg_sp (r : Regs) (i : RegIndex) (v : Word) : (writeReg r i v).sp = r.sp := rfl
@[simp] theorem writeReg_sr (r : Regs) (i : RegIndex) (v : Word) : (writeReg r i v).sr = r.sr := rfl
@[simp] theorem writeReg_intr (r : Regs) (i : RegIndex) (v : Word) : (writeReg r i v).intr = r.intr := rfl
@[simp] theorem writeReg_sintr (r : Regs) (i : RegIndex) (v : Word) : (writeReg r i v).sintr = r.sintr := rfl
@[simp] theorem writeReg_ioOut (r : Regs) (i : RegIndex) (v : Word) : (writeReg r i v).ioOut = r.ioOut := rfl

/-! ### `writeOutPort` -/
@[simp] theorem writeOutPort_pc (r : Regs) (p : PortIndex) (v : Byte) : (writeOutPort r p v).pc = r.pc := rfl
@[simp] theorem writeOutPort_sp (r : Regs) (p : PortIndex) (v : Byte) : (writeOutPort r p v).sp = r.sp := rfl
@[simp] theorem writeOutPort_sr (r : Regs) (p : PortIndex) (v : Byte) : (writeOutPort r p v).sr = r.sr := rfl
@[simp] theorem writeOutPort_intr (r : Regs) (p : PortIndex) (v : Byte) : (writeOutPort r p v).intr = r.intr := rfl
@[simp] theorem writeOutPort_sintr (r : Regs) (p : PortIndex) (v : Byte) : (writeOutPort r p v).sintr = r.sintr := rfl
@[simp] theorem writeOutPort_x (r : Regs) (p : PortIndex) (v : Byte) : (writeOutPort r p v).x = r.x := rfl
@[simp] theorem writeOutPort_ioOut (r : Regs) (p : PortIndex) (v : Byte) : (writeOutPort r p v).ioOut = r.ioOut.set p.toNat v := rfl

/-! ### `regCell` under an update -/

/-- A register copy with the same `x` has the same cells. -/
theorem regCell_congr {r r' : Regs} (h : r'.x = r.x) (i : RegIndex) : regCell r' i = regCell r i := by
  simp [regCell, h]

@[simp] theorem regCell_advance (r : Regs) (i : RegIndex) : regCell (advance r) i = regCell r i := rfl
@[simp] theorem regCell_writeOutPort (r : Regs) (p : PortIndex) (v : Byte) (i : RegIndex) :
    regCell (writeOutPort r p v) i = regCell r i := rfl

/-- A written register holds the value written (rule R246: a write never faults). -/
@[simp] theorem regCell_writeReg_self (r : Regs) (i : RegIndex) (v : Word) :
    regCell (writeReg r i v) i = .value v := by
  simp [regCell, writeReg]

/-- A write leaves every other register alone (rule R31: no aliases). -/
theorem regCell_writeReg_of_ne (r : Regs) {i j : RegIndex} (v : Word) (h : j ≠ i) :
    regCell (writeReg r i v) j = regCell r j := by
  have hn : i.toNat ≠ j.toNat := fun e => h (BitVec.eq_of_toNat_eq e.symm)
  simp [regCell, writeReg, hn]

/-- Both cases of reading a cell after a write. -/
theorem regCell_writeReg (r : Regs) (i j : RegIndex) (v : Word) :
    regCell (writeReg r i v) j = if j = i then .value v else regCell r j := by
  by_cases h : j = i
  · subst h; simp
  · simp [h, regCell_writeReg_of_ne r v h]

end Sys2Proof.Machine
end

