-- ==== Sys2Proof/Laws/Memory.lean ====
section
/-! SUPPORT. RAM: read after write, frames, and that every memory operation keeps the canonical form
(spec/20_memory.md rules R71, R75, R77). -/

namespace Sys2Proof.Machine

/-! ### Bytes -/

/-- An address below every listed one reads 0. -/
theorem readByte_eq_zero_of_lt {m : Memory} {a : Nat} (h : ∀ c ∈ m, a < c.1) : readByte m a = 0 := by
  induction m with
  | nil => rfl
  | cons c rest ih =>
    have hc : c.1 ≠ a := by have := h c (by simp); omega
    simp [readByte, hc, ih fun d hd => h d (by simp [hd])]

theorem consByte_zero (a : Nat) (m : Memory) : consByte a 0 m = m := if_pos rfl

theorem consByte_of_ne (a : Nat) {v : Byte} (m : Memory) (h : v ≠ 0) : consByte a v m = (a, v) :: m := if_neg h

theorem readByte_consByte_self (a : Nat) (v : Byte) {m : Memory} (h : ∀ c ∈ m, a < c.1) :
    readByte (consByte a v m) a = v := by
  by_cases hv : v = 0
  · rw [hv, consByte_zero, readByte_eq_zero_of_lt h]
  · rw [consByte_of_ne a m hv, readByte, if_pos rfl]

theorem readByte_consByte_of_ne {a b : Nat} (v : Byte) (m : Memory) (h : b ≠ a) :
    readByte (consByte a v m) b = readByte m b := by
  by_cases hv : v = 0
  · rw [hv, consByte_zero]
  · rw [consByte_of_ne a m hv, readByte, if_neg (Ne.symm h)]

/-- A byte write leaves every other byte alone, in any memory. -/
theorem readByte_writeByte_of_ne {a b : Nat} (m : Memory) (v : Byte) (h : b ≠ a) :
    readByte (writeByte m a v) b = readByte m b := by
  induction m with
  | nil => simp [writeByte, readByte_consByte_of_ne v [] h]
  | cons c rest ih =>
    obtain ⟨k, w⟩ := c
    simp only [writeByte]
    split
    · exact readByte_consByte_of_ne v _ h
    · split
      · subst a
        rw [readByte_consByte_of_ne v rest h, readByte, if_neg (Ne.symm h)]
      · simp only [readByte, ih]

/-- A byte write stores the byte, in a memory whose addresses rise. -/
theorem readByte_writeByte_self {m : Memory} (hm : m.Pairwise fun c d => c.1 < d.1) (a : Nat) (v : Byte) :
    readByte (writeByte m a v) a = v := by
  induction m with
  | nil => exact readByte_consByte_self a v (by simp)
  | cons c rest ih =>
    obtain ⟨k, w⟩ := c
    obtain ⟨hk, hrest⟩ := List.pairwise_cons.mp hm
    simp only [writeByte]
    split
    · rename_i hlt
      refine readByte_consByte_self a v fun d hd => ?_
      rcases List.mem_cons.mp hd with rfl | hd
      · exact hlt
      · exact lt_trans hlt (hk d hd)
    · split
      · subst a
        exact readByte_consByte_self k v hk
      · rename_i hne
        simp [readByte, Ne.symm hne, ih hrest]

theorem mem_consByte {a : Nat} {v : Byte} {m : Memory} {c : Host.Cell} (h : c ∈ consByte a v m) :
    (c = (a, v) ∧ v ≠ 0) ∨ c ∈ m := by
  by_cases hv : v = 0
  · rw [hv, consByte_zero] at h
    exact .inr h
  · rw [consByte_of_ne a m hv, List.mem_cons] at h
    exact h.imp (⟨·, hv⟩) id

/-- What a byte write can list: the byte written, unless it is 0, and what was listed. -/
theorem mem_writeByte {m : Memory} {a : Nat} {v : Byte} {c : Host.Cell} (h : c ∈ writeByte m a v) :
    (c = (a, v) ∧ v ≠ 0) ∨ c ∈ m := by
  induction m with
  | nil => exact mem_consByte h
  | cons d rest ih =>
    obtain ⟨k, w⟩ := d
    simp only [writeByte] at h
    split at h
    · exact mem_consByte h
    · split at h
      · exact (mem_consByte h).imp_right (List.mem_cons_of_mem _)
      · rcases List.mem_cons.mp h with rfl | h
        · exact .inr (by simp)
        · exact (ih h).imp_right (List.mem_cons_of_mem _)

theorem pairwise_consByte {a : Nat} {v : Byte} {m : Memory} (hm : m.Pairwise fun c d => c.1 < d.1)
    (h : ∀ c ∈ m, a < c.1) : (consByte a v m).Pairwise fun c d => c.1 < d.1 := by
  by_cases hv : v = 0
  · rwa [hv, consByte_zero]
  · rw [consByte_of_ne a m hv]
    exact List.pairwise_cons.mpr ⟨h, hm⟩

theorem pairwise_writeByte {m : Memory} (hm : m.Pairwise fun c d => c.1 < d.1) (a : Nat) (v : Byte) :
    (writeByte m a v).Pairwise fun c d => c.1 < d.1 := by
  induction m with
  | nil => exact pairwise_consByte List.Pairwise.nil (by simp)
  | cons d rest ih =>
    obtain ⟨k, w⟩ := d
    obtain ⟨hk, hrest⟩ := List.pairwise_cons.mp hm
    simp only [writeByte]
    split
    · rename_i hlt
      refine pairwise_consByte hm fun c hc => ?_
      rcases List.mem_cons.mp hc with rfl | hc
      · exact hlt
      · exact lt_trans hlt (hk c hc)
    · split
      · subst a
        exact pairwise_consByte hrest hk
      · rename_i hnlt hne
        refine List.pairwise_cons.mpr ⟨fun c hc => ?_, ih hrest⟩
        rcases mem_writeByte hc with ⟨rfl, _⟩ | hc
        · show k < a
          omega
        · exact hk c hc

/-- A byte write inside the 1024 words keeps the canonical form. -/
theorem writeByte_wf {m : Memory} (hm : Memory.wf m) {a : Nat} (ha : a < 4 * ramWords) (v : Byte) :
    Memory.wf (writeByte m a v) := by
  refine ⟨pairwise_writeByte hm.1 a v, fun c hc => ?_⟩
  rcases mem_writeByte hc with ⟨rfl, hv⟩ | hc
  · exact ⟨hv, ha⟩
  · exact hm.2 c hc

/-! ### Words -/

/-- The four bytes of a word put together give the word (rule R74). -/
@[simp] theorem wordOfBytes_bytes (w : Word) : wordOfBytes (byte0 w) (byte1 w) (byte2 w) (byte3 w) = w := by
  simp only [wordOfBytes, byte0, byte1, byte2, byte3]
  ext i hi
  simp only [BitVec.getElem_append, BitVec.getElem_extractLsb']
  split_ifs <;> simp only [← BitVec.getLsbD_eq_getElem] <;> congr 1 <;> omega

/-- A word write leaves every byte outside the word alone, in any memory. -/
theorem readByte_writeWord_of_ne {i a : Nat} (m : Memory) (w : Word) (h : a / 4 ≠ i) :
    readByte (writeWord m i w) a = readByte m a := by
  have h0 : a ≠ 4 * i := by omega
  have h1 : a ≠ 4 * i + 1 := by omega
  have h2 : a ≠ 4 * i + 2 := by omega
  have h3 : a ≠ 4 * i + 3 := by omega
  simp only [writeWord, readByte_writeByte_of_ne _ _ h0, readByte_writeByte_of_ne _ _ h1,
    readByte_writeByte_of_ne _ _ h2, readByte_writeByte_of_ne _ _ h3]

/-- A word write leaves every other word alone, in any memory. -/
theorem readWord_writeWord_of_ne {i j : Nat} (m : Memory) (w : Word) (h : j ≠ i) :
    readWord (writeWord m i w) j = readWord m j := by
  have h0 : (4 * j) / 4 ≠ i := by omega
  have h1 : (4 * j + 1) / 4 ≠ i := by omega
  have h2 : (4 * j + 2) / 4 ≠ i := by omega
  have h3 : (4 * j + 3) / 4 ≠ i := by omega
  simp only [readWord, readByte_writeWord_of_ne m w h0, readByte_writeWord_of_ne m w h1,
    readByte_writeWord_of_ne m w h2, readByte_writeWord_of_ne m w h3]

/-- A word write stores the word. -/
theorem readWord_writeWord_self {m : Memory} (hm : m.Pairwise fun c d => c.1 < d.1) (i : Nat) (w : Word) :
    readWord (writeWord m i w) i = w := by
  have p0 := pairwise_writeByte hm (4 * i) (byte0 w)
  have p1 := pairwise_writeByte p0 (4 * i + 1) (byte1 w)
  have p2 := pairwise_writeByte p1 (4 * i + 2) (byte2 w)
  simp only [readWord, writeWord]
  rw [readByte_writeByte_of_ne (b := 4 * i) _ _ (by omega), readByte_writeByte_of_ne (b := 4 * i) _ _ (by omega),
    readByte_writeByte_of_ne (b := 4 * i) _ _ (by omega), readByte_writeByte_self hm,
    readByte_writeByte_of_ne (b := 4 * i + 1) _ _ (by omega), readByte_writeByte_of_ne (b := 4 * i + 1) _ _ (by omega),
    readByte_writeByte_self p0, readByte_writeByte_of_ne (b := 4 * i + 2) _ _ (by omega),
    readByte_writeByte_self p1, readByte_writeByte_self p2, wordOfBytes_bytes]

/-- A word write below `RAM_WORDS` keeps the canonical form. -/
theorem writeWord_wf {m : Memory} (hm : Memory.wf m) {i : Nat} (hi : i < ramWords) (w : Word) :
    Memory.wf (writeWord m i w) := by
  have h4 : 4 * i + 3 < 4 * ramWords := by omega
  exact writeByte_wf (writeByte_wf (writeByte_wf (writeByte_wf hm (by omega) _) (by omega) _) (by omega) _) h4 _

/-- Committing a staged write inside RAM keeps the canonical form. -/
theorem applyPend_wf {m : Memory} (hm : Memory.wf m) {p : Option PendingWrite}
    (hp : ∀ w, p = some w → w.addr < ramWords) : Memory.wf (applyPend m p) := by
  cases p with
  | none => exact hm
  | some w => exact writeWord_wf hm (hp w rfl) w.value

/-- Loading an image that fits keeps the canonical form (rule R280). -/
theorem loadImage_wf {m : Memory} (hm : Memory.wf m) (image : List Word) {i : Nat}
    (hi : i + image.length ≤ ramWords) : Memory.wf (loadImage i image m) := by
  induction image generalizing i m with
  | nil => exact hm
  | cons w rest ih =>
    have hlen : i + 1 + rest.length ≤ ramWords := by simpa [Nat.add_assoc, Nat.add_comm 1] using hi
    exact ih (writeWord_wf hm (by omega) w) hlen

/-- The empty memory, which reset starts from, is canonical. -/
theorem nil_wf : Memory.wf [] := ⟨List.Pairwise.nil, by simp⟩

/-- The memory of `State.reset` has the canonical form. -/
theorem reset_ram_wf : Memory.wf State.reset.ram := nil_wf

end Sys2Proof.Machine
end

