-- ==== Sys2Proof/Laws/Ops.lean ====
section
/-! SUPPORT. For each shared operation, once, everything it can answer; for an instruction and a tick, what a next
state can be. Later proofs cite these and do not unfold the operations. -/

namespace Sys2Proof.Machine

/-! ### Checked operands -/

theorem need_ok {α : Type} (v : α) (k : α → Result) : need (.ok v) k = k v := rfl

theorem need_error {α : Type} (f : Fault) (k : α → Result) : need (.error f) k = .fault f := rfl

theorem need_eq_next {α : Type} {r : Except Fault α} {k : α → Result} {t : State} :
    need r k = .next t ↔ ∃ v, r = .ok v ∧ k v = .next t := by
  cases r <;> simp [need]

theorem need_eq_fault {α : Type} {r : Except Fault α} {k : α → Result} {f : Fault} :
    need r k = .fault f ↔ r = .error f ∨ ∃ v, r = .ok v ∧ k v = .fault f := by
  cases r <;> simp [need]

theorem need_eq_refused {α : Type} {r : Except Fault α} {k : α → Result} {e : Refusal} :
    need r k = .refused e ↔ ∃ v, r = .ok v ∧ k v = .refused e := by
  cases r <;> simp [need]

theorem underIsa_isa {s : State} (h : s.cfg.execProfile = .isa) (e : Result) : underIsa s e = e := by
  simp [underIsa, h]

theorem underIsa_literal {s : State} (h : s.cfg.execProfile = .sourceLiteral) (e : Result) :
    underIsa s e = fallThrough s := by
  simp [underIsa, h]

/-- The two profiles (rule R5). -/
theorem underIsa_cases (s : State) (e : Result) :
    (s.cfg.execProfile = .isa ∧ underIsa s e = e) ∨
    (s.cfg.execProfile = .sourceLiteral ∧ underIsa s e = fallThrough s) := by
  cases h : s.cfg.execProfile
  · exact .inl ⟨rfl, underIsa_isa h e⟩
  · exact .inr ⟨rfl, underIsa_literal h e⟩

theorem checkAddr_eq_ok {raise : Nat → Fault} {a e : Nat} :
    checkAddr raise a = .ok e ↔ a < ramWords ∧ e = a := by
  unfold checkAddr
  split <;> simp_all [eq_comm]

theorem checkAddr_eq_error {raise : Nat → Fault} {a : Nat} {f : Fault} :
    checkAddr raise a = .error f ↔ ramWords ≤ a ∧ f = raise a := by
  unfold checkAddr
  split <;> simp_all [eq_comm]

theorem readReg_eq_ok {r : Regs} {i : RegIndex} {v : Word} : readReg r i = .ok v ↔ regCell r i = .value v := by
  unfold readReg
  split <;> simp_all

theorem readReg_eq_error {r : Regs} {i : RegIndex} {f : Fault} :
    readReg r i = .error f ↔ regCell r i = .unwritten ∧ f = .unwrittenReg i := by
  unfold readReg
  split <;> simp_all [eq_comm]

/-! ### Two registers, addresses, ports -/

/-- The stack operations' answers (rules R152, R153). -/
theorem push_eq_ok {v : Word} {r r' : Regs} {w : PendingWrite} :
    push v r = .ok (r', w) ↔
      r.sp.toNat < ramWords ∧ r.sp ≠ 0 ∧ r' = { r with sp := r.sp - 1 } ∧ w = { addr := r.sp.toNat, value := v } := by
  unfold push
  split
  · rename_i h
    exact ⟨fun e => (by cases e), fun e => absurd e.1 (by omega)⟩
  · split
    · rename_i h0
      exact ⟨fun e => (by cases e), fun e => absurd h0 e.2.1⟩
    · rename_i h h0
      simp only [Except.ok.injEq, Prod.mk.injEq]
      exact ⟨fun e => ⟨by omega, h0, e.1.symm, e.2.symm⟩, fun e => ⟨e.2.2.1.symm, e.2.2.2.symm⟩⟩

theorem push_eq_error {v : Word} {r : Regs} {f : Fault} :
    push v r = .error f ↔
      (ramWords ≤ r.sp.toNat ∧ f = .stackRange r.sp.toNat) ∨ (r.sp = 0 ∧ f = .spWrap r.sp) := by
  unfold push
  split
  · rename_i h
    have h0 : r.sp ≠ 0 := fun e => by rw [e] at h; exact absurd h (by decide)
    rw [Except.error.injEq]
    exact ⟨fun e => .inl ⟨h, e.symm⟩, fun e => e.elim (fun e => e.2.symm) (fun e => absurd e.1 h0)⟩
  · rename_i h
    split
    · rename_i h0
      rw [Except.error.injEq]
      exact ⟨fun e => .inr ⟨h0, e.symm⟩, fun e => e.elim (fun e => absurd e.1 h) (fun e => e.2.symm)⟩
    · rename_i h0
      exact ⟨fun e => (by cases e), fun e => e.elim (fun e => absurd e.1 h) (fun e => absurd e.1 h0)⟩

theorem popIsa_eq_ok {s : State} {v : Word} {r : Regs} :
    popIsa s = .ok (v, r) ↔
      s.cur.sp.toNat + 1 < ramWords ∧ v = readWord s.ram (s.cur.sp.toNat + 1) ∧
      r = { s.cur with sp := s.cur.sp + 1 } := by
  unfold popIsa
  split
  · rename_i h
    exact ⟨fun e => (by cases e), fun e => absurd e.1 (by rw [h]; decide)⟩
  · split
    · rename_i h h1
      exact ⟨fun e => (by cases e), fun e => absurd e.1 (by omega)⟩
    · rename_i h h1
      simp only [Except.ok.injEq, Prod.mk.injEq]
      exact ⟨fun e => ⟨by omega, e.1.symm, e.2.symm⟩, fun e => ⟨e.2.1.symm, e.2.2.symm⟩⟩

theorem popLiteral_eq_ok {s : State} {v : Word} {r : Regs} :
    popLiteral s = .ok (v, r) ↔
      s.cur.sp.toNat < ramWords ∧ v = readWord s.ram s.cur.sp.toNat ∧ r = { s.cur with sp := s.cur.sp + 1 } := by
  unfold popLiteral
  split
  · rename_i h
    exact ⟨fun e => (by cases e), fun e => absurd e.1 (by omega)⟩
  · rename_i h
    simp only [Except.ok.injEq, Prod.mk.injEq]
    exact ⟨fun e => ⟨by omega, e.1.symm, e.2.symm⟩, fun e => ⟨e.2.1.symm, e.2.2.symm⟩⟩

/-- Where the `isa` pop traps (rule R153). -/
theorem popIsa_eq_error {s : State} {f : Fault} :
    popIsa s = .error f ↔
      (s.cur.sp = 0xFFFFFFFF ∧ f = .spWrap s.cur.sp) ∨
      (s.cur.sp ≠ 0xFFFFFFFF ∧ ramWords ≤ s.cur.sp.toNat + 1 ∧ f = .stackRange (s.cur.sp.toNat + 1)) := by
  unfold popIsa
  split
  · rename_i h
    simp [h, eq_comm]
  · rename_i h
    split
    · rename_i h1
      rw [Except.error.injEq]
      exact ⟨fun e => .inr ⟨h, h1, e.symm⟩, fun e => e.elim (fun e => absurd e.1 h) (fun e => e.2.2.symm)⟩
    · rename_i h1
      exact ⟨fun e => (by cases e), fun e => e.elim (fun e => absurd e.1 h) (fun e => absurd e.2.1 h1)⟩

/-- Where the `source_literal` pop traps (rule R153). -/
theorem popLiteral_eq_error {s : State} {f : Fault} :
    popLiteral s = .error f ↔ ramWords ≤ s.cur.sp.toNat ∧ f = .stackRange s.cur.sp.toNat := by
  unfold popLiteral
  split <;> simp_all [eq_comm]

/-- Whatever the profile, a pop moves `sp` only (rule R153). -/
theorem pop_ok_regs {s : State} {v : Word} {r : Regs} (h : pop s = .ok (v, r)) :
    r = { s.cur with sp := s.cur.sp + 1 } := by
  unfold pop at h
  split at h
  · exact (popIsa_eq_ok.mp h).2.2
  · exact (popLiteral_eq_ok.mp h).2.2

/-! ### The interrupt check -/

theorem lowestSet_eq_some {b : Byte} {n : Nat} :
    lowestSet b = some n ↔ n < 8 ∧ b.getLsbD n = true ∧ ∀ m < n, b.getLsbD m = false := by
  simp only [lowestSet, List.find?_range_eq_some]
  constructor
  · rintro ⟨hb, hn, hlow⟩
    exact ⟨List.mem_range.mp hn, hb, fun m hm => by simpa using hlow m hm⟩
  · rintro ⟨hn, hb, hlow⟩
    exact ⟨hb, List.mem_range.mpr hn, fun m hm => by simp [hlow m hm]⟩

theorem lowestSet_eq_none {b : Byte} : lowestSet b = none ↔ ∀ n < 8, b.getLsbD n = false := by
  simp [lowestSet, List.find?_eq_none]

theorem takenLine_absent {c : State} (h : c.cfg.irqModel = .absent) : takenLine c = none := by
  simp [takenLine, h]

theorem takenLine_vectored {c : State} (h : c.cfg.irqModel = .vectored) : takenLine c = lowestSet (eligible c) := by
  simp [takenLine, h]

/-! ### What an instruction answers -/

/-- A next state of an instruction is the state it ran from with a register copy and at most one RAM write staged
(rules R45, R46). -/
theorem exec_eq_stage {i : Instr} {s t : State} (h : exec i s = .next t) : ∃ r w, t = stage r w s := by
  have next {r w} (e : Host.Outcome.next (φ := Fault) (ρ := Refusal) (stage r w s) = .next t) :
      ∃ r w, t = stage r w s := by
    cases e
    exact ⟨_, _, rfl⟩
  have under {e : Result} (he : e = .next t → ∃ r w, t = stage r w s) (hu : underIsa s e = .next t) :
      ∃ r w, t = stage r w s := by
    rcases underIsa_cases s e with ⟨_, e'⟩ | ⟨_, e'⟩ <;> rw [e'] at hu
    · exact he hu
    · exact next hu
  cases i with
  | nop => exact next h
  | huc => exact next h
  | buc t => exact next h
  | bic t =>
    refine under (fun h => ?_) h
    split at h <;> exact next h
  | seto p m v => exact under (fun h => by obtain ⟨_, _, h⟩ := need_eq_next.mp h; exact next h) h
  | tsti p m v => exact under (fun h => by obtain ⟨_, _, h⟩ := need_eq_next.mp h; exact next h) h
  | bsr t => obtain ⟨_, _, h⟩ := need_eq_next.mp h; exact next h
  | rsr => obtain ⟨_, _, h⟩ := need_eq_next.mp h; exact next h
  | rir => exact under (fun h => by obtain ⟨_, _, h⟩ := need_eq_next.mp h; exact next h) h
  | sei => exact under next h
  | cli => exact under next h
  | mtr a n => exact under (fun h => by obtain ⟨_, _, h⟩ := need_eq_next.mp h; exact next h) h
  | rtm a n =>
    exact under (fun h => by
      obtain ⟨_, _, h⟩ := need_eq_next.mp h; obtain ⟨_, _, h⟩ := need_eq_next.mp h; exact next h) h
  | imtr a b c =>
    exact under (fun h => by
      obtain ⟨_, _, h⟩ := need_eq_next.mp h; obtain ⟨_, _, h⟩ := need_eq_next.mp h; exact next h) h
  | rtim a b c =>
    exact under (fun h => by
      obtain ⟨_, _, h⟩ := need_eq_next.mp h; obtain ⟨_, _, h⟩ := need_eq_next.mp h
      obtain ⟨_, _, h⟩ := need_eq_next.mp h; exact next h) h
  | pshr a =>
    exact under (fun h => by
      obtain ⟨_, _, h⟩ := need_eq_next.mp h; obtain ⟨_, _, h⟩ := need_eq_next.mp h; exact next h) h
  | popr a => exact under (fun h => by obtain ⟨_, _, h⟩ := need_eq_next.mp h; exact next h) h
  | rtio a p =>
    exact under (fun h => by
      obtain ⟨_, _, h⟩ := need_eq_next.mp h; obtain ⟨_, _, h⟩ := need_eq_next.mp h; exact next h) h
  | iotr a p => exact under (fun h => by obtain ⟨_, _, h⟩ := need_eq_next.mp h; exact next h) h
  | ldlr a n => exact under next h
  | ldur a n => exact under (fun h => by obtain ⟨_, _, h⟩ := need_eq_next.mp h; exact next h) h
  | andr a b c => exact under (fun h => by obtain ⟨_, _, h⟩ := need_eq_next.mp h; exact next h) h
  | orr a b c => exact under (fun h => by obtain ⟨_, _, h⟩ := need_eq_next.mp h; exact next h) h
  | xorr a b c => exact under (fun h => by obtain ⟨_, _, h⟩ := need_eq_next.mp h; exact next h) h
  | srlr a b c => exact under (fun h => by obtain ⟨_, _, h⟩ := need_eq_next.mp h; exact next h) h
  | sllr a b c => exact under (fun h => by obtain ⟨_, _, h⟩ := need_eq_next.mp h; exact next h) h

/-! ### What a tick answers -/

/-- What an interrupt entry that succeeds answers (rule R256). -/
theorem enterInterrupt_eq_next {n : Nat} {s t : State} :
    enterInterrupt n s = .next t ↔
      s.cur.sp.toNat < ramWords ∧ s.cur.sp ≠ 0 ∧
      t = stage { s.cur with sp := s.cur.sp - 1, sintr := s.cur.intr, intr := 0, pc := BitVec.ofNat 32 n }
        (some { addr := s.cur.sp.toNat, value := s.cur.pc }) s := by
  unfold enterInterrupt
  rw [need_eq_next]
  constructor
  · rintro ⟨⟨r, w⟩, hp, h⟩
    obtain ⟨h1, h2, rfl, rfl⟩ := push_eq_ok.mp hp
    cases h
    exact ⟨h1, h2, rfl⟩
  · rintro ⟨h1, h2, rfl⟩
    exact ⟨_, push_eq_ok.mpr ⟨h1, h2, rfl, rfl⟩, rfl⟩

/-- What fetch and decode give (rules R247, R248). -/
theorem fetchDecode_eq_ok {c : State} {i : Instr} :
    fetchDecode c = .ok i ↔ c.cur.pc.toNat < ramWords ∧ decode (readWord c.ram c.cur.pc.toNat) = .ok i := by
  unfold fetchDecode fetch
  cases h : checkAddr .fetchRange c.cur.pc.toNat with
  | error f =>
    have := checkAddr_eq_error.mp h
    simp only [Except.map, reduceCtorEq, false_iff]
    omega
  | ok e =>
    obtain ⟨h1, rfl⟩ := checkAddr_eq_ok.mp h
    simp only [Except.map, h1, true_and]
    cases decode (readWord c.ram c.cur.pc.toNat) with
    | ok j => simp
    | error e => cases e; simp

theorem finishTick_eq_next {c t : State} {l : LastInstr} {o : Result} :
    finishTick c l o = .next t ↔
      (∃ u, o = .next u ∧ t = { u with lastInstr := l }) ∨ (∃ f, o = .fault f ∧ t = recordFault c f l) := by
  cases o <;> simp [finishTick, eq_comm]

/-- The four things a tick can do (rule R242): nothing on a faulted block; enter an interrupt; record a fetch or decode
fault; execute one instruction. -/
theorem step_cases {s t : State} (h : step s = .next t) :
    (s.fault ≠ none ∧ t = s) ∨
    (s.fault = none ∧ ∃ n, takenLine (commit s) = some n ∧
      finishTick (commit s) (.irqEntry n) (enterInterrupt n (commit s)) = .next t) ∨
    (s.fault = none ∧ takenLine (commit s) = none ∧ ∃ f, fetchDecode (commit s) = .error f ∧
      t = recordFault (commit s) f .none) ∨
    (s.fault = none ∧ takenLine (commit s) = none ∧ ∃ i, fetchDecode (commit s) = .ok i ∧
      finishTick (commit s) (lastOf (commit s) i) (exec i (commit s)) = .next t) := by
  unfold step at h
  split at h
  · rename_i r hr
    cases h
    exact .inl ⟨by simp [hr], rfl⟩
  · rename_i hf
    refine .inr ?_
    unfold tickCommitted at h
    split at h
    · rename_i n hn
      exact .inl ⟨hf, n, hn, h⟩
    · rename_i hn
      refine .inr ?_
      split at h
      · rename_i f hd
        cases h
        exact .inl ⟨hf, hn, f, hd, rfl⟩
      · rename_i i hd
        exact .inr ⟨hf, hn, i, hd, h⟩

end Sys2Proof.Machine
end

