-- ==== Sys2Proof/Laws/Operands.lean ====
section
/-! SUPPORT. What each operand form answers (spec/42_memory_ops.md rule R200, spec/20_memory.md rule R72,
spec/60_exceptions.md rule R249). -/

namespace Sys2Proof.Machine

theorem absoluteAddr_eq_ok {n : Imm16} {ea : Nat} : absoluteAddr n = .ok ea ↔ n.toNat < ramWords ∧ ea = n.toNat :=
  checkAddr_eq_ok

theorem absoluteAddr_eq_error {n : Imm16} {f : Fault} :
    absoluteAddr n = .error f ↔ ramWords ≤ n.toNat ∧ f = .dataRange n.toNat := checkAddr_eq_error

theorem indexedAddr_eq_ok {b c : Word} {ea : Nat} :
    indexedAddr b c = .ok ea ↔ b.toNat + c.toNat < ramWords ∧ ea = b.toNat + c.toNat := checkAddr_eq_ok

theorem indexedAddr_eq_error {b c : Word} {f : Fault} :
    indexedAddr b c = .error f ↔ ramWords ≤ b.toNat + c.toNat ∧ f = .dataRange (b.toNat + c.toNat) :=
  checkAddr_eq_error

theorem checkPort_eq_ok {s : State} {p q : PortIndex} : checkPort s p = .ok q ↔ p.toNat < s.cfg.ioPorts ∧ q = p := by
  unfold checkPort
  split <;> simp_all [eq_comm]

theorem checkPort_eq_error {s : State} {p : PortIndex} {f : Fault} :
    checkPort s p = .error f ↔ s.cfg.ioPorts ≤ p.toNat ∧ f = .portRange p := by
  unfold checkPort
  split <;> simp_all [eq_comm]

theorem readPair_eq_ok {r : Regs} {b c : RegIndex} {v w : Word} :
    readPair r b c = .ok (v, w) ↔ regCell r b = .value v ∧ regCell r c = .value w := by
  unfold readPair
  split
  · rename_i f hf
    have := readReg_eq_error.mp hf
    simp [this.1]
  · rename_i vb hb
    split
    · rename_i f hf
      have := readReg_eq_error.mp hf
      simp [this.1]
    · rename_i vc hc
      rw [readReg_eq_ok] at hb hc
      simp [hb, hc]

/-- The register fault of two sources, `regB` first (rule R222). -/
theorem readPair_eq_error {r : Regs} {b c : RegIndex} {f : Fault} :
    readPair r b c = .error f ↔
      (regCell r b = .unwritten ∧ f = .unwrittenReg b) ∨
      (regCell r b ≠ .unwritten ∧ regCell r c = .unwritten ∧ f = .unwrittenReg c) := by
  unfold readPair
  split
  · rename_i g hg
    obtain ⟨hb, rfl⟩ := readReg_eq_error.mp hg
    simp [hb, eq_comm]
  · rename_i vb hb
    rw [readReg_eq_ok] at hb
    split
    · rename_i g hg
      obtain ⟨hc, rfl⟩ := readReg_eq_error.mp hg
      simp [hb, hc, eq_comm]
    · rename_i vc hc
      rw [readReg_eq_ok] at hc
      simp [hb, hc]

end Sys2Proof.Machine
end

