-- ==== Sys2Proof/Laws/Flags.lean ====
section
/-! SUPPORT. What each flag, mask and shift computation gives, bit by bit (spec/41_io_and_mask.md rules R180, R181,
spec/43_immediate_logic.md rules R225 to R227, spec/60_exceptions.md rule R255). -/

namespace Sys2Proof.Machine

/-- Rule R180, bit by bit. -/
theorem setBits_getLsbD (old mask value : Byte) (k : Nat) :
    (setBits old mask value).getLsbD k = if mask.getLsbD k then value.getLsbD k else old.getLsbD k := by
  by_cases hk : k < 8
  · simp only [setBits, BitVec.getLsbD_or, BitVec.getLsbD_and, BitVec.getLsbD_not, hk, decide_true, Bool.true_and]
    cases mask.getLsbD k <;> simp
  · rw [BitVec.getLsbD_of_ge _ _ (by omega), BitVec.getLsbD_of_ge mask _ (by omega),
      BitVec.getLsbD_of_ge old _ (by omega)]
    simp

/-- Rule R181: `sr` is 1 exactly if the masked bits agree. -/
theorem testResult_eq_one {port mask value : Byte} :
    testResult port mask value = 1 ↔ ∀ k, mask.getLsbD k = true → port.getLsbD k = value.getLsbD k := by
  have agree : port &&& mask = value &&& mask ↔ ∀ k, mask.getLsbD k = true → port.getLsbD k = value.getLsbD k := by
    refine ⟨fun h k hk => ?_, fun h => BitVec.eq_of_getLsbD_eq fun k _ => ?_⟩
    · simpa [hk] using congrArg (·.getLsbD k) h
    · cases hk : mask.getLsbD k
      · simp [hk]
      · simp [hk, h k hk]
  rw [← agree, testResult]
  split <;> simp_all

/-- Rule R181: `sr` is 1 or 0. -/
theorem testResult_cases (port mask value : Byte) : testResult port mask value = 0 ∨ testResult port mask value = 1 := by
  unfold testResult
  split <;> simp

/-- Rule R225, bit by bit. -/
theorem shiftRight_getLsbD (mode : ShiftMode) (b sh : Word) (k : Nat) :
    (shiftRight mode b sh).getLsbD k = b.getLsbD (k + shiftAmount mode sh) := by
  unfold shiftRight
  split
  · rw [BitVec.getLsbD_of_ge b _ (by omega)]
    simp
  · simp [Nat.add_comm]

/-- Rule R226, bit by bit. -/
theorem shiftLeft_getLsbD (mode : ShiftMode) (b sh : Word) {k : Nat} (hk : k < 32) :
    (shiftLeft mode b sh).getLsbD k = (decide (shiftAmount mode sh ≤ k) && b.getLsbD (k - shiftAmount mode sh)) := by
  unfold shiftLeft
  split
  · have : ¬ shiftAmount mode sh ≤ k := by omega
    simp [this]
  · rw [BitVec.getLsbD_shiftLeft]
    by_cases h : shiftAmount mode sh ≤ k
    · have hn : ¬ k < shiftAmount mode sh := by omega
      simp [hk, h, hn]
    · have hn : k < shiftAmount mode sh := by omega
      simp [h, hn]

/-- Rule R255: the lines that have an IDT entry. -/
theorem vecMask_getLsbD (idtLength : Nat) {n : Nat} (hn : n < 8) :
    (vecMask idtLength).getLsbD n = decide (n < idtLength) := by
  simp only [vecMask, BitVec.getLsbD_ofNat, hn, decide_true, Bool.true_and, Nat.testBit_two_pow_sub_one]
  simp
  omega

/-- Rule R255: line `n` is eligible if it is pending, enabled and has an IDT entry. -/
theorem eligible_getLsbD (c : State) {n : Nat} (hn : n < 8) :
    (eligible c).getLsbD n = true ↔
      c.irqPending.getLsbD n = true ∧ c.cur.intr.getLsbD n = true ∧ n < c.cfg.idtLength := by
  simp only [eligible, BitVec.getLsbD_and, vecMask_getLsbD _ hn]
  simp [and_assoc]

/-- Rule R221 as numbers. -/
theorem withUpperHalf_toNat (n : Imm16) (v : Word) :
    (withUpperHalf n v).toNat = 65536 * n.toNat + v.toNat % 65536 := by
  have e : (withUpperHalf n v).toNat = (n ++ (v.setWidth 16 : BitVec 16) : BitVec (16 + 16)).toNat := rfl
  have h : v.toNat % 2 ^ 16 < 2 ^ 16 := Nat.mod_lt _ (by decide)
  rw [e, BitVec.toNat_append, Nat.shiftLeft_eq, BitVec.toNat_setWidth, Nat.mul_comm, ← Nat.two_pow_add_eq_or_of_lt h]
  norm_num

end Sys2Proof.Machine
end

