-- ==== Sys2Proof/Laws/HostSide.lean ====
section
/-! SUPPORT. The recursions over program text and over a schedule of host moves, one line or one move at a time
(spec/30_encoding.md rules R125, R127, spec/70_reset_and_hazards.md rules R295, R296). -/

namespace Sys2Proof.Machine

/-! ### Text -/

@[simp] theorem nonBlank_nil : nonBlank [] = [] := rfl

theorem nonBlank_cons (l : List Char) (ls : List (List Char)) :
    nonBlank (l :: ls) = if (trimLine l).isEmpty then nonBlank ls else l :: nonBlank ls := by
  unfold nonBlank
  rw [List.filter_cons]
  split <;> split <;> simp_all

theorem decodeLines_cons (idtLength ln address : Nat) (l : List Char) (ls : List (List Char)) :
    decodeLines idtLength ln address (l :: ls) =
      if (trimLine l).isEmpty then decodeLines idtLength (ln + 1) address ls
      else match decodeLine idtLength address l with
        | .error e => ([], [{ lineNumber := ln, rawText := l, error := e }])
        | .ok d    => (d :: (decodeLines idtLength (ln + 1) (address + 1) ls).1,
                        (decodeLines idtLength (ln + 1) (address + 1) ls).2) := rfl

/-- A line that decodes is a word that parses and decodes at the address. -/
theorem decodeLine_eq_ok {idtLength address : Nat} {l : List Char} {d : TypedInstr} :
    decodeLine idtLength address l = .ok d ↔
      ∃ w, parseWord l = .ok w ∧ decodeTyped w idtLength address = .ok d := by
  unfold decodeLine
  cases parseWord l with
  | error e => simp
  | ok w =>
    cases h : decodeTyped w idtLength address with
    | ok d' => simp [h]
    | error e => cases e; simp [h]

/-- A typed instruction stands at the address it was decoded at. -/
theorem decodeTyped_address {w : Word} {idtLength address : Nat} {d : TypedInstr}
    (h : decodeTyped w idtLength address = .ok d) : d.address = address := by
  unfold decodeTyped at h
  split at h <;> cases h
  rfl

/-! ### Runs -/

@[simp] theorem runUntilEnd_nil (s : State) : runUntilEnd [] s = .unfinished s := rfl

theorem runUntilEnd_tick {s t : State} (h : step s = .next t) (rest : List HostMove) :
    runUntilEnd (.tick :: rest) s = afterTick (runUntilEnd rest) t := by
  simp only [runUntilEnd, hostStep, h, if_true]

theorem runUntilEnd_move {m : HostMove} {s t : State} (hm : m ≠ .tick) (h : hostStep m s = .next t)
    (rest : List HostMove) : runUntilEnd (m :: rest) s = runUntilEnd rest t := by
  simp only [runUntilEnd, h, if_neg hm]

/-- The final state of a tick of an unfaulted block is the committed state it executed from (rule R295 (a)). -/
theorem finalState_of_step {s t : State} (hs : s.fault = none) (h : step s = .next t) :
    finalState t = committed s := by
  rcases step_cases h with ⟨hf, _⟩ | ⟨_, n, _, h⟩ | ⟨_, _, f, _, rfl⟩ | ⟨_, _, i, _, h⟩
  · exact absurd hs hf
  · rcases finishTick_eq_next.mp h with ⟨u, hu, rfl⟩ | ⟨f, _, rfl⟩
    · obtain ⟨_, _, rfl⟩ := enterInterrupt_eq_next.mp hu
      rfl
    · rfl
  · rfl
  · rcases finishTick_eq_next.mp h with ⟨u, hu, rfl⟩ | ⟨f, _, rfl⟩
    · obtain ⟨r, w, rfl⟩ := exec_eq_stage hu
      rfl
    · rfl

end Sys2Proof.Machine
end

