-- ==== Sys2Proof/Laws/PerInstr.lean ====
section
/-! SUPPORT. Facts about every instruction as syntax, one lemma per constructor. -/

namespace Sys2Proof.Laws.EncodeFields

/-- The word of an instruction has its opcode, one of the 26, in bits 31:24 and its operand bits in bits 23:0
(spec/30_encoding.md rules R100, R102). -/
def Statement (i : Instr) : Prop :=
  byte0 (encode i) = i.opcode ∧ address24Of (encode i) = i.operandBits ∧ i.opcode.toNat < 26

/-- The two halves of an encoded word. -/
theorem halves (i : Instr) : byte0 (encode i) = i.opcode ∧ address24Of (encode i) = i.operandBits := by
  constructor
  · ext k hk
    simp only [byte0, encode, BitVec.getElem_extractLsb']
    show (i.opcode ++ i.operandBits : BitVec (8 + 24)).getLsbD (24 + k) = _
    rw [BitVec.getLsbD_append, if_neg (by omega), Nat.add_sub_cancel_left, BitVec.getLsbD_eq_getElem hk]
  · ext k hk
    simp only [address24Of, encode, BitVec.getElem_extractLsb', Nat.zero_add]
    show (i.opcode ++ i.operandBits : BitVec (8 + 24)).getLsbD k = _
    rw [BitVec.getLsbD_append, if_pos hk, BitVec.getLsbD_eq_getElem hk]

theorem nop : Statement .nop := ⟨(halves _).1, (halves _).2, by simp [Instr.opcode]⟩
theorem huc : Statement .huc := ⟨(halves _).1, (halves _).2, by simp [Instr.opcode]⟩
theorem buc (t : Address24) : Statement (.buc t) := ⟨(halves _).1, (halves _).2, by simp [Instr.opcode]⟩
theorem bic (t : Address24) : Statement (.bic t) := ⟨(halves _).1, (halves _).2, by simp [Instr.opcode]⟩
theorem seto (p : PortIndex) (m : Byte) (v : Byte) : Statement (.seto p m v) := ⟨(halves _).1, (halves _).2, by simp [Instr.opcode]⟩
theorem tsti (p : PortIndex) (m : Byte) (v : Byte) : Statement (.tsti p m v) := ⟨(halves _).1, (halves _).2, by simp [Instr.opcode]⟩
theorem bsr (t : Address24) : Statement (.bsr t) := ⟨(halves _).1, (halves _).2, by simp [Instr.opcode]⟩
theorem rsr : Statement .rsr := ⟨(halves _).1, (halves _).2, by simp [Instr.opcode]⟩
theorem rir : Statement .rir := ⟨(halves _).1, (halves _).2, by simp [Instr.opcode]⟩
theorem sei : Statement .sei := ⟨(halves _).1, (halves _).2, by simp [Instr.opcode]⟩
theorem cli : Statement .cli := ⟨(halves _).1, (halves _).2, by simp [Instr.opcode]⟩
theorem mtr (a : RegIndex) (n : Imm16) : Statement (.mtr a n) := ⟨(halves _).1, (halves _).2, by simp [Instr.opcode]⟩
theorem rtm (a : RegIndex) (n : Imm16) : Statement (.rtm a n) := ⟨(halves _).1, (halves _).2, by simp [Instr.opcode]⟩
theorem imtr (a : RegIndex) (b : RegIndex) (c : RegIndex) : Statement (.imtr a b c) := ⟨(halves _).1, (halves _).2, by simp [Instr.opcode]⟩
theorem rtim (a : RegIndex) (b : RegIndex) (c : RegIndex) : Statement (.rtim a b c) := ⟨(halves _).1, (halves _).2, by simp [Instr.opcode]⟩
theorem pshr (a : RegIndex) : Statement (.pshr a) := ⟨(halves _).1, (halves _).2, by simp [Instr.opcode]⟩
theorem popr (a : RegIndex) : Statement (.popr a) := ⟨(halves _).1, (halves _).2, by simp [Instr.opcode]⟩
theorem rtio (a : RegIndex) (p : PortIndex) : Statement (.rtio a p) := ⟨(halves _).1, (halves _).2, by simp [Instr.opcode]⟩
theorem iotr (a : RegIndex) (p : PortIndex) : Statement (.iotr a p) := ⟨(halves _).1, (halves _).2, by simp [Instr.opcode]⟩
theorem ldlr (a : RegIndex) (n : Imm16) : Statement (.ldlr a n) := ⟨(halves _).1, (halves _).2, by simp [Instr.opcode]⟩
theorem ldur (a : RegIndex) (n : Imm16) : Statement (.ldur a n) := ⟨(halves _).1, (halves _).2, by simp [Instr.opcode]⟩
theorem andr (a : RegIndex) (b : RegIndex) (c : RegIndex) : Statement (.andr a b c) := ⟨(halves _).1, (halves _).2, by simp [Instr.opcode]⟩
theorem orr (a : RegIndex) (b : RegIndex) (c : RegIndex) : Statement (.orr a b c) := ⟨(halves _).1, (halves _).2, by simp [Instr.opcode]⟩
theorem xorr (a : RegIndex) (b : RegIndex) (c : RegIndex) : Statement (.xorr a b c) := ⟨(halves _).1, (halves _).2, by simp [Instr.opcode]⟩
theorem srlr (a : RegIndex) (b : RegIndex) (c : RegIndex) : Statement (.srlr a b c) := ⟨(halves _).1, (halves _).2, by simp [Instr.opcode]⟩
theorem sllr (a : RegIndex) (b : RegIndex) (c : RegIndex) : Statement (.sllr a b c) := ⟨(halves _).1, (halves _).2, by simp [Instr.opcode]⟩

end Sys2Proof.Laws.EncodeFields
end

