-- ==== Sys2Proof/Tests/Slice0.lean ====
section
/-! SUPPORT. Small tests, each of one step: the vectors of spec/95_test_vectors.md (named in each docstring as V<n>, whose
expected values are the spec's own), words written out from spec/30_encoding.md rules R104 to R111, ill-formed terms, and
for every statement with hypotheses a state that meets them. -/

namespace Sys2Proof.Tests

open Sys2Proof.Machine Sys2Proof.Safety

/-! ### Builders -/

/-- A state between two ticks: the committed and the staged registers are reset's with the given `pc` and `sp`, every
input port holds 0. -/
def quiet (c : Config) (pc sp : Word) : State :=
  { cfg := c, ram := [], cur := { Regs.reset c with pc := pc, sp := sp }, nxt := { Regs.reset c with pc := pc, sp := sp },
    pend := none, ioIn := List.replicate c.ioPorts 0, irqPending := 0, lastInstr := .none, fault := none }

/-- Both register copies changed alike. -/
def withRegs (f : Regs → Regs) (s : State) : State := { s with cur := f s.cur, nxt := f s.nxt }

/-- A general register given a value. -/
def withX (i : RegIndex) (v : Word) (s : State) : State := withRegs (fun r => writeReg r i v) s

/-- An output port given a value. -/
def withOut (p : PortIndex) (v : Byte) (s : State) : State := withRegs (fun r => writeOutPort r p v) s

/-- An input port given a value. -/
def withIn (p : Nat) (v : Byte) (s : State) : State := { s with ioIn := s.ioIn.set p v }

/-- A RAM word given a value. -/
def withRam (i : Nat) (w : Word) (s : State) : State := { s with ram := writeWord s.ram i w }

/-- The masks and `sr` given values. -/
def withMasks (intr sintr : Byte) (s : State) : State := withRegs (fun r => { r with intr := intr, sintr := sintr }) s

def withSr (sr : Byte) (s : State) : State := withRegs (fun r => { r with sr := sr }) s

/-- The spec's defaults (rule R6) and the vectors' other parameters. -/
def isa : Config := Config.specDefault

def literal : Config := { Config.specDefault with execProfile := .sourceLiteral }

def masked : Config := { Config.specDefault with shiftMode := .mask5 }

def vectored : Config := { Config.specDefault with irqModel := .vectored }

/-- One tick with a word placed at `pc`. -/
def tick (w : Word) (s : State) : Result := step (placeWord s w)

/-- What can be seen of a next state. -/
def seen {α : Type} (f : State → α) : Result → Option α
  | .next t    => some (f t)
  | .fault _   => none
  | .refused _ => none

/-- The recorded fault's code and info, with the address. -/
def faultOf (r : Result) : Option (Option (Nat × Nat × Word)) :=
  seen (fun t => t.fault.map fun q => (q.reason.code, q.reason.info, q.pc)) r

/-- The register `i` that the tick stages. -/
def regAfter (i : RegIndex) (r : Result) : Option RegCell := seen (fun t => regCell t.nxt i) r

/-- The word `i` of RAM as the next commit leaves it. -/
def ramAfter (i : Nat) (r : Result) : Option Word := seen (fun t => readWord (commit t).ram i) r

def pcAfter (r : Result) : Option Word := seen (fun t => t.nxt.pc) r

def spAfter (r : Result) : Option Word := seen (fun t => t.nxt.sp) r

/-- An answer of which something is seen is a next state. -/
theorem exists_of_seen {α : Type} {f : State → α} {r : Result} {a : α} (h : seen f r = some a) :
    ∃ t, r = .next t ∧ f t = a := by
  cases r with
  | next t => exact ⟨t, rfl, by simpa [seen] using h⟩
  | fault f => cases h
  | refused e => cases h

/-! ### Ill-formed terms -/

/-- Rule R6: an `IDT_LENGTH` above `RAM_WORDS` is refused; 1024 is not. -/
theorem test_config_refuses_a_long_idt :
    (Config.wellFormed { isa with idtLength := 1025 }) = false ∧ (Config.wellFormed { isa with idtLength := 1024 }) = true := by
  decide

/-- V121: an image of 1025 words is refused, and reset gives no state; 1024 words fit. -/
theorem test_reset_refuses_a_long_image :
    imageWellFormed (List.replicate 1025 0) = false ∧ imageWellFormed (List.replicate 1024 0) = true := by
  simp only [imageWellFormed, List.length_replicate]
  decide

/-- V27: an opcode byte outside the table is refused by its value. -/
theorem test_decode_refuses_opcode_255 : decode 0xFF000000 = .error (.unknownOpcode 255) := by decide

/-! ### Decoding: words written out bit by bit from rule R111's opcodes and rule R109's shapes -/

theorem test_decode_control :
    decode 0b00000000_00000000_00000000_00000000 = .ok .nop ∧
    decode 0b00000001_00000000_00000000_00000000 = .ok .huc ∧
    decode 0b00000010_00000001_00000010_00000011 = .ok (.buc 0x010203) ∧
    decode 0b00000011_10000000_00000000_00000001 = .ok (.bic 0x800001) ∧
    decode 0b00000110_00000000_00000000_00110011 = .ok (.bsr 0x33) ∧
    decode 0b00000111_00010010_00110100_01010110 = .ok .rsr ∧
    decode 0b00001000_00000000_00000000_00000000 = .ok .rir := by decide

theorem test_decode_io_and_mask :
    decode 0b00000100_00000010_11110000_10100101 = .ok (.seto 2 0xF0 0xA5) ∧
    decode 0b00000101_00000001_00000000_11111111 = .ok (.tsti 1 0x00 0xFF) ∧
    decode 0b00001001_00000000_00000000_00000000 = .ok .sei ∧
    decode 0b00001010_00000000_00000000_00000000 = .ok .cli ∧
    decode 0b00010001_00000010_00000001_00000000 = .ok (.rtio 2 1) ∧
    decode 0b00010010_00000001_11111111_01110111 = .ok (.iotr 1 0xFF) := by decide

theorem test_decode_memory :
    decode 0b00001011_00000010_00000000_01000000 = .ok (.mtr 2 0x0040) ∧
    decode 0b00001100_00000001_11111111_11111110 = .ok (.rtm 1 0xFFFE) ∧
    decode 0b00001101_00000011_00000001_00000010 = .ok (.imtr 3 1 2) ∧
    decode 0b00001110_00000011_00000001_00000010 = .ok (.rtim 3 1 2) ∧
    decode 0b00001111_00000001_10101011_11001101 = .ok (.pshr 1) ∧
    decode 0b00010000_11111111_00000000_00000000 = .ok (.popr 255) := by decide

theorem test_decode_immediate_logic :
    decode 0b00010011_00000001_00010010_00110100 = .ok (.ldlr 1 0x1234) ∧
    decode 0b00010100_00000001_10101011_11001101 = .ok (.ldur 1 0xABCD) ∧
    decode 0b00010101_00000011_00000001_00000010 = .ok (.andr 3 1 2) ∧
    decode 0b00010110_00000100_00000001_00000010 = .ok (.orr 4 1 2) ∧
    decode 0b00010111_00000101_00000001_00000010 = .ok (.xorr 5 1 2) ∧
    decode 0b00011000_00000111_00000001_00000110 = .ok (.srlr 7 1 6) ∧
    decode 0b00011001_00001000_00000001_00000110 = .ok (.sllr 8 1 6) := by decide

/-- Words of P1 to P5 (spec/95_test_vectors.md section 3), written by the encoder. -/
theorem test_encode_words_of_the_programs :
    encode (.tsti 0 1 1) = 0x05000101 ∧ encode (.bic 0x0B) = 0x0300000B ∧ encode (.iotr 1 0) = 0x12010000 ∧
    encode (.rtm 1 0x40) = 0x0C010040 ∧ encode (.rtio 2 1) = 0x11020100 ∧ encode (.rtim 2 1 2) = 0x0E020102 ∧
    encode (.popr 4) = 0x10040000 ∧ encode (.ldur 1 0xABCD) = 0x1401ABCD := by decide

/-- The typed instruction: V12, V13, V14, V18. -/
theorem test_typed_instructions :
    (typedInstr 8 0x0C (.buc 0x0D)).hasEdge = false ∧
    (typedInstr 8 0x0C (.bic 5)).successors = [0x0D, 5] ∧ (typedInstr 8 0x0C (.bic 5)).destKind = some .irq ∧
    (typedInstr 8 0x0C (.bsr 3)).destKind = some .irq ∧ (typedInstr 8 0x0C .rir).successors = [0x0D] ∧
    (typedInstr 8 0x0C .rir).hasEdge = false := by decide

/-- L1.5, L1.6, V15, V16: `jumpTarget` and `dest`. -/
theorem test_jump_targets :
    jumpTarget 8 0x36 = 46 ∧ jumpTarget 8 0x33 = 43 ∧ jumpTarget 0 0x36 = 54 ∧ jumpTarget 8 0 = -8 ∧
    (typedInstr 8 9 (.buc 0x36)).dest = some (.code 46) ∧ (typedInstr 8 9 (.buc 0)).dest = some (.idt 0) ∧
    (typedInstr 8 9 (.bsr 0x33)).destKind = some .routine := by decide

/-- The host's numbering: a row given 8 bits is read with its operand bits 0. -/
theorem test_decode_table_word :
    decodeTableWord 32 0x0402F0A5 = some (.seto 2 0xF0 0xA5) ∧ decodeTableWord 8 26 = some .nop ∧
    decodeTableWord 32 0x1A000000 = none := by decide

/-! ### Text -/

/-- V1, V2, V3. -/
theorem test_parse_word :
    parseWord ['0', 'a', '0', '0', '0', '0', '0', '0'] = .ok 0x0A000000 ∧
    parseWord [' ', ' ', '0', 'A', '0', '0', '0', '0', '0', '0', '\t'] = .ok 0x0A000000 ∧
    parseWord ['0', 'x', '0', '0', '0', '0', '0', '0'] =
      .error (.malformedWord ['0', 'x', '0', '0', '0', '0', '0', '0']) := by decide

/-- V4: the run stops at line 3, counted with the blank one. -/
theorem test_decode_run_v4 :
    ((decodeRun [wordText 0, [], wordText 0x1A000000, wordText 0] 0).instructions.map (·.mnemonic)) = [.nop] ∧
    (decodeRun [wordText 0, [], wordText 0x1A000000, wordText 0] 0).diagnostics =
      [⟨3, ['1', 'A', '0', '0', '0', '0', '0', '0'], .unknownOpcode 26⟩] := by decide

/-- V5: code addresses go on after the IDT. -/
theorem test_decode_run_v5 :
    (decodeRun [wordText 0, wordText 0, wordText 0x0A000000] 2).idt.map (·.address) = [0, 1] ∧
    (decodeRun [wordText 0, wordText 0, wordText 0x0A000000] 2).instructions.map
      (fun d => (d.mnemonic, d.address)) = [(.cli, 2)] := by decide

/-- The assembly of P2's words at 9 and 14 (rule R128). -/
theorem test_asm_text :
    asmText (.bic 0x0B) = ['b', 'i', 'c', ' ', '0', 'x', '0', '0', '0', '0', '0', 'B'] ∧
    asmText (.rtio 2 1) = ['r', 't', 'i', 'o', ' ', 'p', '1', ',', ' ', 'r', '2'] := by decide

/-! ### Control transfer -/

/-- V30. -/
theorem test_nop_v30 :
    pcAfter (tick 0x00000000 (quiet isa 0x3FF 0)) = some 0x400 ∧
    faultOf (step (quiet isa 0x400 0)) = some (some (1, 0x400, 0x400)) := by decide

/-- V48. -/
theorem test_huc_v48 :
    seen (fun t => (t.nxt.pc, (snapshot t).pc, runStatus t)) (tick 0x01000000 (quiet isa 0x10 0)) =
      some (0x11, 0x10, .ended) := by decide

/-- V31. -/
theorem test_buc_v31 :
    pcAfter (tick 0x02FFFFFF (quiet isa 0x0C 0)) = some 0xFFFFFF ∧
    faultOf (step (quiet isa 0xFFFFFF 0)) = some (some (1, 0xFFFFFF, 0xFFFFFF)) := by decide

/-- V32, V33. -/
theorem test_bic_v32_v33 :
    pcAfter (tick 0x0300000B (withSr 1 (quiet isa 9 0))) = some 0x0B ∧
    pcAfter (tick 0x0300000B (withSr 0 (quiet isa 9 0))) = some 0x0A := by decide

/-- V34. -/
theorem test_bic_v34 : pcAfter (tick 0x0300000B (withSr 1 (quiet literal 9 0))) = some 0x0A := by decide

/-- V35, V39. -/
theorem test_bsr_v35_v39 :
    ramAfter 0x3FF (tick 0x06000010 (quiet isa 0x0B 0x3FF)) = some 0x0C ∧
    spAfter (tick 0x06000010 (quiet isa 0x0B 0x3FF)) = some 0x3FE ∧
    pcAfter (tick 0x06000010 (quiet isa 0x0B 0x3FF)) = some 0x10 ∧
    ramAfter 1 (tick 0x06000010 (quiet isa 0x20 1)) = some 0x21 ∧
    spAfter (tick 0x06000010 (quiet isa 0x20 1)) = some 0 := by decide

/-- V36, V37, V38. -/
theorem test_bsr_v36_v37_v38 :
    faultOf (tick 0x06000010 (quiet isa 8 0xFFFFFFFF)) = some (some (6, 0xFFFFFFFF, 8)) ∧
    faultOf (tick 0x06000010 (quiet isa 8 0)) = some (some (7, 0, 8)) ∧
    faultOf (tick 0x06000010 (quiet isa 8 0x400)) = some (some (6, 0x400, 8)) := by decide

/-- V40, V43. -/
theorem test_rsr_v40_v43 :
    pcAfter (tick 0x07000000 (withRam 0x3FF 0x0C (quiet isa 8 0x3FE))) = some 0x0C ∧
    spAfter (tick 0x07000000 (withRam 0x3FF 0x0C (quiet isa 8 0x3FE))) = some 0x3FF ∧
    pcAfter (tick 0x07000000 (withRam 0x3FE 5 (quiet literal 8 0x3FE))) = some 5 ∧
    spAfter (tick 0x07000000 (withRam 0x3FE 5 (quiet literal 8 0x3FE))) = some 0x3FF := by decide

/-- V41, V42, V44. -/
theorem test_rsr_v41_v42_v44 :
    faultOf (tick 0x07000000 (quiet isa 8 0x3FF)) = some (some (6, 0x400, 8)) ∧
    faultOf (tick 0x07000000 (quiet isa 8 0xFFFFFFFF)) = some (some (7, 0xFFFFFFFF, 8)) ∧
    faultOf (tick 0x07000000 (quiet literal 8 0xFFFFFFFF)) = some (some (6, 0xFFFFFFFF, 8)) := by decide

/-- V45, V46. -/
theorem test_rir_v45_v46 :
    seen (fun t => (t.nxt.pc, t.nxt.sp, t.nxt.intr))
      (tick 0x08000000 (withMasks 0 0xFF (withRam 0x3FF 9 (quiet isa 8 0x3FE)))) = some (9, 0x3FF, 0xFF) ∧
    seen (fun t => (t.nxt.pc, t.nxt.sp, t.nxt.intr))
      (tick 0x08000000 (withMasks 0xFF 0 (withRam 0x3FF 9 (quiet isa 8 0x3FE)))) = some (9, 0x3FF, 0x00) := by decide

/-- V47. -/
theorem test_rir_v47 :
    seen (fun t => (t.nxt.pc, t.nxt.sp)) (tick 0x08000000 (quiet literal 0x14 0x3FE)) = some (0x15, 0x3FE) := by decide

/-! ### I/O and masks -/

/-- V50 to V53. -/
theorem test_seto_v50_to_v53 :
    seen (fun t => outPort t.nxt 2) (tick 0x0402F0A5 (withOut 2 0x0F (quiet isa 8 0))) = some 0xAF ∧
    seen (fun t => outPort t.nxt 3) (tick 0x040300FF (withOut 3 0x5A (quiet isa 8 0))) = some 0x5A ∧
    seen (fun t => outPort t.nxt 3) (tick 0x0403FF3C (withOut 3 0x5A (quiet isa 8 0))) = some 0x3C ∧
    seen (fun t => outPort t.nxt 0) (tick 0x04000F00 (withOut 0 0xFF (quiet isa 8 0))) = some 0xF0 := by decide

/-- V54. -/
theorem test_seto_v54 : faultOf (tick 0x0408FFFF (quiet isa 8 0)) = some (some (4, 8, 8)) := by decide

/-- V55 to V58. -/
theorem test_tsti_v55_to_v58 :
    seen (fun t => t.nxt.sr) (tick 0x05000101 (withIn 0 0x03 (quiet isa 8 0))) = some 1 ∧
    seen (fun t => t.nxt.sr) (tick 0x05000101 (withIn 0 0x02 (withSr 1 (quiet isa 8 0)))) = some 0 ∧
    seen (fun t => t.nxt.sr) (tick 0x050100FF (withIn 1 0x77 (quiet isa 8 0))) = some 1 ∧
    seen (fun t => t.nxt.sr) (tick 0x0500F0AF (withIn 0 0xA5 (quiet isa 8 0))) = some 1 := by decide

/-- V59, V60. -/
theorem test_tsti_v59_v60 :
    faultOf (tick 0x05FF0101 (quiet isa 8 0)) = some (some (4, 255, 8)) ∧
    seen (fun t => (t.nxt.sr, t.nxt.pc)) (tick 0x05000101 (withIn 0 0x03 (quiet literal 8 0))) = some (0, 9) := by decide

/-- V61, V62. -/
theorem test_sei_v61 :
    seen (fun t => (t.nxt.intr, t.nxt.sintr)) (tick 0x09000000 (withMasks 0 0xFF (quiet isa 8 0))) = some (0xFF, 0xFF) := by
  decide

theorem test_cli_v62 :
    seen (fun t => (t.nxt.intr, t.nxt.pc)) (tick 0x0A000000 (withMasks 0xFF 0 (quiet isa 0x0C 0))) = some (0, 0x0D) := by
  decide

/-- V63. -/
theorem test_rtio_v63 :
    seen (fun t => outPort t.nxt 1) (tick 0x11020100 (withX 2 0x103 (quiet isa 8 0))) = some 0x03 := by decide

/-- V64, V65. -/
theorem test_rtio_v64_v65 :
    faultOf (tick 0x11020900 (quiet isa 8 0)) = some (some (3, 2, 8)) ∧
    faultOf (tick 0x11020900 (withX 2 5 (quiet isa 8 0))) = some (some (4, 9, 8)) := by decide

/-- V66, V67. -/
theorem test_iotr_v66_v67 :
    regAfter 1 (tick 0x12010000 (withIn 0 0x03 (quiet isa 8 0))) = some (.value 3) ∧
    faultOf (tick 0x12010800 (quiet isa 8 0)) = some (some (4, 8, 8)) := by decide

/-! ### Memory and stack -/

/-- V70, V71. -/
theorem test_mtr_v70_v71 :
    regAfter 2 (tick 0x0B020040 (withRam 0x40 3 (quiet isa 8 0))) = some (.value 3) ∧
    regAfter 2 (tick 0x0B0203FF (withRam 0x3FF 0xDEADBEEF (quiet isa 8 0))) = some (.value 0xDEADBEEF) := by decide

/-- V72. -/
theorem test_mtr_v72 : faultOf (tick 0x0B020400 (quiet isa 8 0)) = some (some (5, 0x400, 8)) := by decide

/-- V73: staged by this tick, in RAM from the next. -/
theorem test_rtm_v73 :
    ramAfter 0x40 (tick 0x0C010040 (withX 1 3 (quiet isa 8 0))) = some 3 ∧
    seen (fun t => readWord t.ram 0x40) (tick 0x0C010040 (withX 1 3 (quiet isa 8 0))) = some 0 := by decide

/-- V74. -/
theorem test_rtm_v74 : faultOf (tick 0x0C01FFFF (quiet isa 8 0)) = some (some (3, 1, 8)) := by decide

/-- V75, V76. -/
theorem test_imtr_v75_v76 :
    regAfter 3 (tick 0x0D030102 (withRam 0x32 2 (withX 1 0x30 (withX 2 2 (quiet isa 8 0))))) = some (.value 2) ∧
    regAfter 1 (tick 0x0D010102 (withRam 0x32 7 (withX 1 0x30 (withX 2 2 (quiet isa 8 0))))) = some (.value 7) := by
  decide

/-- V77. -/
theorem test_imtr_v77 :
    faultOf (tick 0x0D030102 (withX 1 0xFFFFFFFF (withX 2 1 (quiet isa 8 0)))) = some (some (5, 0x100000000, 8)) := by
  decide

/-- V78, V79. -/
theorem test_rtim_v78_v79 :
    ramAfter 0x32 (tick 0x0E020102 (withX 1 0x30 (withX 2 2 (quiet isa 8 0)))) = some 2 ∧
    faultOf (tick 0x0E030102 (withX 1 0x3FF (withX 2 1 (withX 3 0 (quiet isa 8 0))))) = some (some (5, 0x400, 8)) := by
  decide

/-- V80, V85. -/
theorem test_pshr_v80_v85 :
    ramAfter 0x3FE (tick 0x0F010000 (withX 1 0x30 (quiet isa 8 0x3FE))) = some 0x30 ∧
    spAfter (tick 0x0F010000 (withX 1 0x30 (quiet isa 8 0x3FE))) = some 0x3FD ∧
    ramAfter 0x3FE (tick 0x0F010000 (withX 1 0x30 (quiet literal 8 0x3FE))) = some 0 ∧
    spAfter (tick 0x0F010000 (withX 1 0x30 (quiet literal 8 0x3FE))) = some 0x3FE := by decide

/-- V81, V82. -/
theorem test_pshr_v81_v82 :
    faultOf (tick 0x0F010000 (withX 1 0x30 (quiet isa 8 0))) = some (some (7, 0, 8)) ∧
    faultOf (tick 0x0F010000 (quiet isa 8 0)) = some (some (3, 1, 8)) := by decide

/-- V83, V84. -/
theorem test_popr_v83_v84 :
    regAfter 4 (tick 0x10040000 (withRam 0x3FE 0x30 (quiet isa 8 0x3FD))) = some (.value 0x30) ∧
    spAfter (tick 0x10040000 (withRam 0x3FE 0x30 (quiet isa 8 0x3FD))) = some 0x3FE ∧
    faultOf (tick 0x10040000 (quiet isa 8 0x3FF)) = some (some (6, 0x400, 8)) := by decide

/-! ### Immediates, logic and shifts -/

/-- V90, V91. -/
theorem test_ldlr_v90_v91 :
    regAfter 1 (tick 0x13011234 (quiet isa 8 0)) = some (.value 0x1234) ∧
    regAfter 1 (tick 0x13010000 (withX 1 0xFFFFFFFF (quiet isa 8 0))) = some (.value 0) := by decide

/-- V92, V93. -/
theorem test_ldur_v92_v93 :
    regAfter 1 (tick 0x1401ABCD (withX 1 0x1234 (quiet isa 8 0))) = some (.value 0xABCD1234) ∧
    faultOf (tick 0x1401ABCD (quiet isa 8 0)) = some (some (3, 1, 8)) := by decide

/-- The sources of V94 to V96. -/
def logicSources : State := withX 1 0xABCD1234 (withX 2 0xFF (quiet isa 8 0))

/-- V94, V97. -/
theorem test_andr_v94_v97 :
    regAfter 3 (tick 0x15030102 logicSources) = some (.value 0x34) ∧
    regAfter 9 (tick 0x15090101 logicSources) = some (.value 0xABCD1234) := by decide

/-- V95, V100. -/
theorem test_orr_v95_v100 :
    regAfter 4 (tick 0x16040102 logicSources) = some (.value 0xABCD12FF) ∧
    faultOf (tick 0x16010203 (quiet isa 8 0)) = some (some (3, 2, 8)) := by decide

/-- V96, V98, V99. -/
theorem test_xorr_v96_v98_v99 :
    regAfter 5 (tick 0x17050102 logicSources) = some (.value 0xABCD12CB) ∧
    regAfter 1 (tick 0x17010101 logicSources) = some (.value 0) ∧
    faultOf (tick 0x17010101 (quiet isa 8 0)) = some (some (3, 1, 8)) := by decide

/-- The sources of V103 to V108: a value and an amount. -/
def shiftSources (c : Config) (amount : Word) : State := withX 1 0x80000001 (withX 6 amount (quiet c 8 0))

/-- V101, V105, V106, V109. -/
theorem test_srlr_saturate :
    regAfter 7 (tick 0x18070106 (withX 1 0xABCD1234 (shiftSources isa 4))) = some (.value 0x0ABCD123) ∧
    regAfter 7 (tick 0x18070106 (shiftSources isa 31)) = some (.value 1) ∧
    regAfter 7 (tick 0x18070106 (shiftSources isa 32)) = some (.value 0) ∧
    regAfter 6 (tick 0x18060106 (withX 1 5 (shiftSources isa 1))) = some (.value 2) := by decide

/-- V106 to V108 under `mask5`. -/
theorem test_srlr_mask5 :
    regAfter 7 (tick 0x18070106 (shiftSources masked 32)) = some (.value 0x80000001) ∧
    regAfter 7 (tick 0x18070106 (shiftSources masked 33)) = some (.value 0x40000000) ∧
    regAfter 7 (tick 0x18070106 (shiftSources masked 0xFFFFFFFF)) = some (.value 1) := by decide

/-- V102, V103, V105, V108. -/
theorem test_sllr_saturate :
    regAfter 8 (tick 0x19080106 (withX 1 0xABCD1234 (shiftSources isa 4))) = some (.value 0xBCD12340) ∧
    regAfter 8 (tick 0x19080106 (shiftSources isa 0)) = some (.value 0x80000001) ∧
    regAfter 8 (tick 0x19080106 (shiftSources isa 31)) = some (.value 0x80000000) ∧
    regAfter 8 (tick 0x19080106 (shiftSources isa 0xFFFFFFFF)) = some (.value 0) := by decide

/-- V106 to V108 under `mask5`. -/
theorem test_sllr_mask5 :
    regAfter 8 (tick 0x19080106 (shiftSources masked 32)) = some (.value 0x80000001) ∧
    regAfter 8 (tick 0x19080106 (shiftSources masked 33)) = some (.value 2) ∧
    regAfter 8 (tick 0x19080106 (shiftSources masked 0xFFFFFFFF)) = some (.value 0x80000000) := by decide

/-! ### Faults, interrupts, reset -/

/-- V110, V111. -/
theorem test_illegal_opcode_v110_v111 :
    faultOf (tick 0x1A000000 (quiet isa 8 0)) = some (some (2, 0x1A, 8)) ∧
    pcAfter (tick 0x1A000000 (quiet isa 8 0)) = some 8 ∧
    pcAfter (step { quiet isa 8 0 with fault := some ⟨.illegalOpcode 0x1A, 8⟩ }) = some 8 := by decide

/-- The state of V113. -/
def interrupted : State := { withMasks 0xFF 0 (quiet vectored 0x20 0x3FF) with irqPending := 0x06 }

/-- V113. -/
theorem test_interrupt_v113 :
    seen (fun t => (t.lastInstr, t.nxt.pc, t.nxt.sp, t.nxt.intr, t.nxt.sintr)) (step interrupted) =
      some (.irqEntry 1, 1, 0x3FE, 0, 0xFF) ∧
    ramAfter 0x3FF (step interrupted) = some 0x20 := by decide

/-- V114, V115: no entry. -/
theorem test_interrupt_v114_v115 :
    takenLine { interrupted with cfg := { vectored with idtLength := 2 }, irqPending := 0x04 } = none ∧
    takenLine { withMasks 0 0 (quiet vectored 0x20 0x3FF) with irqPending := 0xFF } = none := by decide

/-- V116, V117. -/
theorem test_interrupt_v116_v117 :
    faultOf (step { withMasks 0xFF 0 (quiet vectored 8 0xFFFFFFFF) with irqPending := 1 }) =
      some (some (6, 0xFFFFFFFF, 8)) ∧
    pcAfter (step { withMasks 0xFF 0 (quiet vectored 0x400 0x3FF) with irqPending := 1 }) = some 0 ∧
    ramAfter 0x3FF (step { withMasks 0xFF 0 (quiet vectored 0x400 0x3FF) with irqPending := 1 }) = some 0x400 := by decide

/-- V120: the special registers, RAM and the general registers. -/
theorem test_reset_v120 :
    seen (fun t => (t.nxt.pc, t.nxt.sp, t.nxt.sr, t.nxt.intr, regCell t.nxt 255))
      (resetWith isa [0x13011234, 0x01000000, 0x0A000000] (quiet isa 3 3)) =
      some (8, 0xFFFFFFFF, 0, 0, .unwritten) ∧
    seen (fun t => (readWord t.ram 0, readWord t.ram 2, readWord t.ram 3))
      (resetWith isa [0x13011234, 0x01000000, 0x0A000000] (quiet isa 3 3)) = some (0x13011234, 0x0A000000, 0) := by decide

/-- V122. -/
theorem test_reset_v122 :
    faultOf (step (resetState { isa with idtLength := 1024 } [] [] 0)) = some (some (1, 0x400, 0x400)) := by decide

/-- Rules R72, R84: the host's moves, and a port that does not exist. -/
theorem test_host_moves :
    seen (fun t => inPort t 0) (hostStep (.setIoIn 0 3) (quiet isa 8 0)) = some 3 ∧
    seen (fun t => t.irqPending) (hostStep (.setIrq 7 true) (quiet vectored 8 0)) = some 0x80 ∧
    seen (fun t => t.irqPending) (hostStep (.setIoIn 8 3) (quiet isa 8 0)) = none := by decide

/-- The host's own use: an instruction placed after reset is the first that runs. -/
theorem test_placed_word_runs :
    seen (fun t => (t.nxt.pc, regCell t.nxt 1)) (step (State.reset.withFetchWord 32 0x13011234)) =
      some (9, .value 0x1234) := by decide

/-! ### Witnesses: for each statement with hypotheses, a state and operands that meet them together -/

/-- Ignored bits that differ, and a used bit that does. -/
theorem witness_IgnoredBitsDoNotMatter :
    decode 0x0F01ABCD = .ok (.pshr 1) ∧ ((0x0F01ABCD : Word) ^^^ 0x0F010000) &&& usedMask (.pshr 1) = 0 ∧
    ((0x0F01ABCD : Word) ^^^ 0x0F02ABCD) &&& usedMask (.pshr 1) ≠ 0 := by decide

/-- The opcode bytes on both sides of the boundary. -/
theorem witness_DecodeRefusesOpcodesAbove25 :
    25 < (byte0 0x1AFFFFFF).toNat ∧ (byte0 0x19FFFFFF).toNat ≤ 25 := by decide

/-- The boundary opcodes of each group: 0, 4, 5, 9 and 25; 1; 7; 8. -/
theorem witness_StaticSuccessors :
    (Instr.nop).opcode = 0 ∧ (Instr.seto 0 0 0).opcode = 4 ∧ (Instr.tsti 0 0 0).opcode = 5 ∧
    9 ≤ (Instr.sei).opcode.toNat ∧ 9 ≤ (Instr.sllr 0 0 0).opcode.toNat ∧ (Instr.huc).opcode = 1 ∧
    (Instr.rsr).opcode = 7 ∧ (Instr.rir).opcode = 8 := by decide

/-- Targets on both sides of `IDT_LENGTH`, neither the next address. -/
theorem witness_EdgesAndDestinations :
    (7 : Address24).toNat ≠ 0x0C + 1 ∧ (7 : Address24).toNat < 8 ∧ (8 : Address24).toNat ≠ 0x0C + 1 ∧
    8 ≤ (8 : Address24).toNat := by decide

/-- A run with code, and one whose diagnostic comes after a blank line (V4). -/
theorem witness_DecodeRunAddresses :
    (decodeRun [wordText 0, wordText 0, wordText 0x0A000000] 2).instructions ≠ [] ∧
    (decodeRun [wordText 0, [], wordText 0x1A000000, wordText 0] 0).diagnostics ≠ [] := by decide

/-- A text with an illegal opcode has an image, ignored bits kept; the decode run of it gave address 1. -/
theorem witness_ImageMatchesDecodeRun :
    imageOfLines [wordText 0, [], wordText 0x0AFFFFFF, wordText 0x1A000000] = .ok [0, 0x0AFFFFFF, 0x1A000000] ∧
    (((decodeRun [wordText 0, [], wordText 0x0AFFFFFF, wordText 0x1A000000] 1).idt ++
      (decodeRun [wordText 0, [], wordText 0x0AFFFFFF, wordText 0x1A000000] 1).instructions)[1]?).isSome = true := by
  decide

/-- Images of 1024 and of 1025 words, and the largest `IDT_LENGTH`. -/
theorem witness_ResetWritesEveryField :
    Config.wellFormed { isa with idtLength := 1024 } = true ∧ (List.replicate 1024 (0 : Word)).length ≤ ramWords ∧
    ramWords < (List.replicate 1025 (0 : Word)).length := by
  simp only [List.length_replicate]
  decide

theorem witness_ResetWithImageMeetsInvariant :
    ∃ t, resetWith isa [0x13011234] (quiet isa 3 3) = .next t ∧ t.nxt.pc = 8 := exists_of_seen (by decide)

/-- A tick whose instruction runs, and one whose instruction faults. -/
theorem witness_StepRunsTheDecodedInstruction :
    ((placeWord (quiet isa 0x3FF 0) 0x13011234).fault = none ∧
      takenLine (commit (placeWord (quiet isa 0x3FF 0) 0x13011234)) = none ∧
      (placeWord (quiet isa 0x3FF 0) 0x13011234).nxt.pc.toNat < ramWords ∧
      decode (readWord (commit (placeWord (quiet isa 0x3FF 0) 0x13011234)).ram 0x3FF) = .ok (.ldlr 1 0x1234) ∧
      ∃ t, exec (.ldlr 1 0x1234) (commit (placeWord (quiet isa 0x3FF 0) 0x13011234)) = .next t ∧ t.nxt.pc = 0x400) ∧
    decode (readWord (commit (placeWord (quiet isa 8 0) 0x0F010000)).ram 8) = .ok (.pshr 1) ∧
      exec (.pshr 1) (commit (placeWord (quiet isa 8 0) 0x0F010000)) = .fault (.unwrittenReg 1) :=
  ⟨⟨rfl, by decide, by decide, by decide, exists_of_seen (by decide)⟩, by decide, rfl⟩

/-- The first address outside RAM, and the first opcode outside the table at the last word. -/
theorem witness_FetchAndDecodeFaults :
    (quiet isa 0x400 0).fault = none ∧ takenLine (commit (quiet isa 0x400 0)) = none ∧
    ramWords ≤ (quiet isa 0x400 0).nxt.pc.toNat ∧
    (withRam 0x3FF 0x1A000000 (quiet isa 0x3FF 0)).fault = none ∧
    takenLine (commit (withRam 0x3FF 0x1A000000 (quiet isa 0x3FF 0))) = none ∧
    (withRam 0x3FF 0x1A000000 (quiet isa 0x3FF 0)).nxt.pc.toNat < ramWords ∧
    25 < (byte0 (readWord (commit (withRam 0x3FF 0x1A000000 (quiet isa 0x3FF 0))).ram 0x3FF)).toNat := by decide

/-- A tick that records a fault. -/
theorem witness_FaultsArePreciseAndSticky :
    (quiet isa 0x400 0).fault = none ∧
    ∃ t, step (quiet isa 0x400 0) = .next t ∧ t.fault = some ⟨.fetchRange 0x400, 0x400⟩ :=
  ⟨rfl, exists_of_seen (by decide)⟩

/-- An instruction that runs and one that faults, on a state. -/
theorem witness_ProgramsCannotSeeTheFaultRecord :
    (∃ t, exec (.pshr 1) (withX 1 0x30 (quiet isa 8 0x3FE)) = .next t ∧ t.nxt.sp = 0x3FD) ∧
    exec (.pshr 1) (quiet isa 8 0x3FE) = .fault (.unwrittenReg 1) :=
  ⟨exists_of_seen (by decide), rfl⟩

theorem witness_OnlyTstiAndIotrReadInputs :
    (∀ p m v, Instr.pshr 1 ≠ .tsti p m v) ∧ (∀ a p, Instr.pshr 1 ≠ .iotr a p) ∧
    (∃ t, exec (.pshr 1) (withX 1 0x30 (quiet isa 8 0x3FE)) = .next t ∧ t.nxt.sp = 0x3FD) ∧
    exec (.pshr 1) (quiet isa 8 0x3FE) = .fault (.unwrittenReg 1) :=
  ⟨by simp, by simp, exists_of_seen (by decide), rfl⟩

/-- A state that meets the invariant, with a staged write, and its tick. -/
theorem witness_EveryTickKeepsTheInvariant :
    BlockInv { quiet Config.atReset 8 0x3FF with pend := some ⟨0x3FF, 5⟩ } ∧
    ∃ t, step { quiet Config.atReset 8 0x3FF with pend := some ⟨0x3FF, 5⟩ } = .next t ∧ t.nxt.pc = 9 := by
  have regs : RegsInv Config.atReset { Regs.reset Config.atReset with pc := 8, sp := 0x3FF } :=
    ⟨.inl rfl, .inl rfl, .inl rfl, rfl, fun _ => rfl, fun _ i => by simp [regCell, Regs.reset, Config.atReset],
      fun _ => rfl⟩
  refine ⟨⟨?_, ?_, regs, regs, rfl, ?_⟩, exists_of_seen (by decide)⟩
  · exact ⟨List.Pairwise.nil, fun c hc => absurd hc (by simp [quiet])⟩
  · intro w hw
    cases hw
    decide
  · intro r hr
    cases hr

/-- A tick that runs, a tick that faults, and a reset. -/
theorem witness_EngineRefinesTheSequentialView :
    (quiet isa 8 0).fault = none ∧ (∃ t, step (quiet isa 8 0) = .next t ∧ t.fault = none) ∧
    (∃ t, step (quiet isa 0x400 0) = .next t ∧ t.fault = some ⟨.fetchRange 0x400, 0x400⟩) ∧
    ∃ t, resetWith isa [0x01000000] (quiet isa 3 3) = .next t ∧ t.nxt.pc = 8 :=
  ⟨rfl, exists_of_seen (by decide), exists_of_seen (by decide), exists_of_seen (by decide)⟩

theorem witness_SnapshotShowsTheCommittedState :
    (quiet isa 8 0).fault = none ∧
    ∃ t, step (quiet isa 8 0) = .next t ∧ (snapshot t).lastInstr = .instr (typedInstr 8 8 .nop) :=
  ⟨rfl, exists_of_seen (by decide)⟩

/-- One instruction for each register, mask and port that can change, and a store. -/
theorem witness_WhoWritesWhat :
    (∃ t, exec (.pshr 1) (withX 1 0x30 (quiet isa 8 0x3FE)) = .next t ∧ decide (t.nxt.sp ≠ 0x3FE ∧ t.pend ≠ none) = true) ∧
    (∃ t, exec (.tsti 0 0 0) (quiet isa 8 0) = .next t ∧ decide (t.nxt.sr ≠ 0) = true) ∧
    (∃ t, exec .sei (quiet isa 8 0) = .next t ∧ decide (t.nxt.intr ≠ 0) = true) ∧
    ∃ t, exec (.seto 0 0xFF 1) (quiet isa 8 0) = .next t ∧ decide (t.nxt.ioOut ≠ List.replicate 8 0) = true :=
  ⟨exists_of_seen (by decide), exists_of_seen (by decide), exists_of_seen (by decide), exists_of_seen (by decide)⟩

theorem witness_WrittenRegistersStayWritten :
    regCell (withX 255 3 (quiet isa 8 0)).nxt 255 ≠ .unwritten ∧
    ∃ t, step (withX 255 3 (quiet isa 8 0)) = .next t ∧ regCell t.nxt 255 = .value 3 :=
  ⟨by decide, exists_of_seen (by decide)⟩

/-- The `pc` of a run's final state, or the code of the fault it ends in. -/
def endOf : RunResult → Option (Word ⊕ Nat)
  | .ended final   => some (.inl final.regs.pc)
  | .faulted r _   => some (.inr r.reason.code)
  | .unfinished _  => none
  | .refused _     => none

/-- A tick that ends the run and one that is faulted; and runs with a host move before that tick. -/
theorem witness_RunsEndAtHucOrFault :
    (∃ t, step (placeWord (quiet isa 8 0) 0x01000000) = .next t ∧ runStatus t = .ended) ∧
    (∃ t, step (quiet isa 0x400 0) = .next t ∧ runStatus t = .faulted ⟨.fetchRange 0x400, 0x400⟩) ∧
    endOf (runUntilEnd [.setIoIn 0 3, .tick, .tick] (placeWord (quiet isa 8 0) 0x01000000)) = some (.inl 8) ∧
    endOf (runUntilEnd [.setIoIn 0 3, .tick, .tick] (quiet isa 0x400 0)) = some (.inr 1) :=
  ⟨exists_of_seen (by decide), exists_of_seen (by decide), by decide, by decide⟩

/-- A run whose second tick is the first faulting one. -/
theorem witness_RunsAreSafeUntilTheFirstFault :
    (quiet isa 0x3FF 0).fault = none ∧ faultOf (step (quiet isa 0x3FF 0)) = some none ∧
    faultOf (Host.Core.run Sys2Proof.core 2 (quiet isa 0x3FF 0)) = some (some (1, 0x400, 0x400)) := by decide

/-- The lowest of two lines, at the mask's boundary, and no line where it has no IDT entry. -/
theorem witness_LowestEligibleLineIsTaken :
    takenLine (commit interrupted) = some 1 ∧
    takenLine { interrupted with cfg := { vectored with idtLength := 2 }, irqPending := 0x06 } = some 1 ∧
    takenLine { interrupted with irqPending := 0x80 } = some 7 := by decide

theorem witness_InterruptEntrySavesAndVectors :
    interrupted.fault = none ∧ takenLine (commit interrupted) = some 1 ∧ Memory.wf (commit interrupted).ram ∧
    interrupted.nxt.sp.toNat < ramWords ∧ interrupted.nxt.sp ≠ 0 :=
  ⟨rfl, by decide, ⟨List.Pairwise.nil, fun c hc => absurd hc (by simp [commit, applyPend, interrupted, withMasks, withRegs, quiet])⟩, by decide, by decide⟩

/-- Entries at the first stack slot outside RAM and at 0. -/
theorem witness_InterruptEntryFaults :
    takenLine (commit { withMasks 0xFF 0 (quiet vectored 8 0x400) with irqPending := 1 }) = some 0 ∧
    ramWords ≤ (0x400 : Word).toNat ∧
    takenLine (commit { withMasks 0xFF 0 (quiet vectored 8 0) with irqPending := 1 }) = some 0 := by decide

/-- The absent model with every line raised and enabled. -/
theorem witness_AbsentModelNeverInterrupts :
    isa.irqModel = .absent ∧ ∃ t, step { withMasks 0xFF 0 (quiet isa 8 0x3FF) with irqPending := 0xFF } = .next t ∧
      t.nxt.pc = 9 :=
  ⟨rfl, exists_of_seen (by decide)⟩

/-- An entry at the smallest stack slot, and a handler's state at its rir. -/
theorem witness_RirUndoesInterruptEntry :
    vectored.execProfile = .isa ∧
    (∃ t, enterInterrupt 0 (withMasks 0xFF 0 (quiet vectored 0x20 1)) = .next t ∧
      (t.nxt.sp, t.nxt.sintr, readWord (commit t).ram 1) = (0, 0xFF, 0x20)) ∧
    (withMasks 0 0xFF (withRam 1 0x20 (quiet vectored 5 0))).cur.sp = 0 ∧
    (withMasks 0 0xFF (withRam 1 0x20 (quiet vectored 5 0))).cur.sintr = 0xFF ∧
    readWord (withMasks 0 0xFF (withRam 1 0x20 (quiet vectored 5 0))).ram 1 = 0x20 :=
  ⟨rfl, exists_of_seen (by decide), rfl, rfl, by decide⟩

/-- Ports 7 and 8 and line 7. -/
theorem witness_HostInputMoves :
    (quiet vectored 8 0).ioIn.length = (quiet vectored 8 0).cfg.ioPorts ∧ 7 < (quiet vectored 8 0).cfg.ioPorts ∧
    (quiet vectored 8 0).cfg.ioPorts ≤ 8 ∧ (quiet vectored 8 0).cfg.irqModel = .vectored := by decide

/-- `sr.T` set and clear. -/
theorem witness_BicBranchesOnT :
    (withSr 1 (quiet isa 9 0)).cfg.execProfile = .isa ∧ (withSr 1 (quiet isa 9 0)).cur.sr.getLsbD 0 = true ∧
    (withSr 0 (quiet isa 9 0)).cur.sr.getLsbD 0 = false := by decide

/-- The smallest and the largest slot a push writes; pushes from empty RAM. -/
theorem witness_BsrPushesTheReturnAddress :
    Memory.wf (quiet isa 0x20 1).ram ∧ (quiet isa 0x20 1).cur.sp.toNat < ramWords ∧ (quiet isa 0x20 1).cur.sp ≠ 0 ∧
    (quiet isa 0x20 0x3FF).cur.sp.toNat < ramWords ∧ (quiet isa 0x20 0x3FF).cur.sp ≠ 0 :=
  ⟨⟨List.Pairwise.nil, fun c hc => absurd hc (by simp [quiet])⟩, by decide, by decide, by decide, by decide⟩

/-- The largest stack pointers a pop accepts in each profile. -/
theorem witness_RsrPopsIntoPc :
    isa.execProfile = .isa ∧ (quiet isa 8 0x3FE).cur.sp.toNat + 1 < ramWords ∧
    literal.execProfile = .sourceLiteral ∧ (quiet literal 8 0x3FF).cur.sp.toNat < ramWords := by decide

theorem witness_RirPopsAndRestoresTheMask :
    (quiet isa 8 0x3FE).cfg.execProfile = .isa ∧ (quiet isa 8 0x3FE).cur.sp.toNat + 1 < ramWords := by decide

/-- A call in each profile and the callee's state at its rsr. -/
theorem witness_RsrAfterBsr :
    (∃ t, exec (.bsr 0x10) (quiet isa 0x0B 0x3FF) = .next t ∧
      (t.nxt.sp, readWord (commit t).ram 0x3FF) = (0x3FE, 0x0C)) ∧
    (withRam 0x3FF 0x0C (quiet isa 0x14 0x3FE)).cur.sp = 0x3FE ∧
    readWord (withRam 0x3FF 0x0C (quiet isa 0x14 0x3FE)).ram 0x3FF = 0x0C ∧
    ∃ t, exec (.bsr 0x10) (quiet literal 0x0B 0x3FF) = .next t ∧ t.nxt.sp = 0x3FE :=
  ⟨exists_of_seen (by decide), rfl, by decide, exists_of_seen (by decide)⟩

theorem witness_SourceLiteralIsTheDefaultTransition :
    literal.execProfile = .sourceLiteral ∧ (∀ a, Instr.rir ≠ .buc a) ∧ (∀ a, Instr.rir ≠ .bsr a) ∧ Instr.rir ≠ .rsr :=
  ⟨rfl, by simp, by simp, by simp⟩

/-- The first slot outside RAM and 0, for both instructions that push. -/
theorem witness_PushFaults :
    isa.execProfile = .isa ∧ regCell (withX 1 0x30 (quiet isa 8 0x400)).cur 1 = .value 0x30 ∧
    ramWords ≤ (withX 1 0x30 (quiet isa 8 0x400)).cur.sp.toNat ∧
    regCell (withX 1 0x30 (quiet isa 8 0)).cur 1 = .value 0x30 ∧ (withX 1 0x30 (quiet isa 8 0)).cur.sp = 0 := by decide

/-- The first slot outside RAM and the wrapping pointer, in each profile. -/
theorem witness_PopFaults :
    (quiet isa 8 0xFFFFFFFF).cur.sp = 0xFFFFFFFF ∧ (quiet isa 8 0x3FF).cur.sp ≠ 0xFFFFFFFF ∧
    ramWords ≤ (quiet isa 8 0x3FF).cur.sp.toNat + 1 ∧ (quiet literal 8 0x400).cfg.execProfile = .sourceLiteral ∧
    ramWords ≤ (quiet literal 8 0x400).cur.sp.toNat := by decide

/-- The last port, with as many output ports as the parameters give; the first that does not exist. -/
theorem witness_SetoSetsTheMaskedBits :
    (quiet isa 8 0).cfg.execProfile = .isa ∧ (7 : PortIndex).toNat < (quiet isa 8 0).cfg.ioPorts ∧
    (quiet isa 8 0).cur.ioOut.length = (quiet isa 8 0).cfg.ioPorts := by decide

/-- A match and a mismatch. -/
theorem witness_TstiComparesTheMaskedBits :
    (7 : PortIndex).toNat < (withIn 7 0xA5 (quiet isa 8 0)).cfg.ioPorts ∧
    (∀ k < 8, (0xF0 : Byte).getLsbD k = true →
      (inPort (withIn 7 0xA5 (quiet isa 8 0)) 7).getLsbD k = (0xAF : Byte).getLsbD k) ∧
    ∃ k, (0x0F : Byte).getLsbD k = true ∧
      (inPort (withIn 7 0xA5 (quiet isa 8 0)) 7).getLsbD k ≠ (0xAF : Byte).getLsbD k :=
  ⟨by decide, by decide, 1, by decide⟩

theorem witness_SeiAndCliWriteTheMask : (quiet isa 8 0).cfg.execProfile = .isa := rfl

theorem witness_RtioWritesTheLowByte :
    (withX 2 0x103 (quiet isa 8 0)).cfg.execProfile = .isa ∧ (7 : PortIndex).toNat < (withX 2 0x103 (quiet isa 8 0)).cfg.ioPorts ∧
    (withX 2 0x103 (quiet isa 8 0)).cur.ioOut.length = (withX 2 0x103 (quiet isa 8 0)).cfg.ioPorts ∧
    regCell (withX 2 0x103 (quiet isa 8 0)).cur 2 = .value 0x103 := by decide

theorem witness_IotrReadsTheInputPort :
    (quiet isa 8 0).cfg.execProfile = .isa ∧ (7 : PortIndex).toNat < (quiet isa 8 0).cfg.ioPorts := by decide

/-- The first port that does not exist, with a written and an unwritten register. -/
theorem witness_PortFaults :
    (quiet isa 8 0).cfg.execProfile = .isa ∧ (quiet isa 8 0).cfg.ioPorts ≤ (8 : PortIndex).toNat ∧
    regCell (withX 2 5 (quiet isa 8 0)).cur 2 ≠ .unwritten ∧ regCell (withX 2 5 (quiet isa 8 0)).cur 3 = .unwritten := by
  decide

/-- The last RAM word. -/
theorem witness_MtrLoadsTheWord : (quiet isa 8 0).cfg.execProfile = .isa ∧ (0x3FF : Imm16).toNat < ramWords := by decide

theorem witness_RtmStoresTheRegister :
    (withX 1 3 (quiet isa 8 0)).cfg.execProfile = .isa ∧ Memory.wf (withX 1 3 (quiet isa 8 0)).ram ∧
    regCell (withX 1 3 (quiet isa 8 0)).cur 1 = .value 3 ∧ (0x3FF : Imm16).toNat < ramWords ∧
    absoluteAddr 0x3FF = .ok 0x3FF :=
  ⟨rfl, ⟨List.Pairwise.nil, fun c hc => absurd hc (by simp [withX, withRegs, quiet])⟩, by decide, by decide, rfl⟩

/-- Base and index whose sum is the last RAM word. -/
theorem witness_ImtrLoadsFromTheSum :
    regCell (withX 1 0x3FE (withX 2 1 (quiet isa 8 0))).cur 1 = .value 0x3FE ∧
    regCell (withX 1 0x3FE (withX 2 1 (quiet isa 8 0))).cur 2 = .value 1 ∧
    (0x3FE : Word).toNat + (1 : Word).toNat < ramWords := by decide

/-- A store of the base itself, at the last RAM word. -/
theorem witness_RtimStoresAtTheSum :
    Memory.wf (withX 1 0x3FE (withX 2 1 (quiet isa 8 0))).ram ∧
    regCell (withX 1 0x3FE (withX 2 1 (quiet isa 8 0))).cur 1 = .value 0x3FE ∧
    regCell (withX 1 0x3FE (withX 2 1 (quiet isa 8 0))).cur 2 = .value 1 ∧
    (0x3FE : Word).toNat + (1 : Word).toNat < ramWords ∧ indexedAddr 0x3FE 1 = .ok 0x3FF :=
  ⟨⟨List.Pairwise.nil, fun c hc => absurd hc (by simp [withX, withRegs, quiet])⟩, by decide, by decide, by decide, rfl⟩

theorem witness_PshrPushesTheRegister :
    (withX 1 0x30 (quiet isa 8 1)).cfg.execProfile = .isa ∧ Memory.wf (withX 1 0x30 (quiet isa 8 1)).ram ∧
    regCell (withX 1 0x30 (quiet isa 8 1)).cur 1 = .value 0x30 ∧ (withX 1 0x30 (quiet isa 8 1)).cur.sp.toNat < ramWords ∧
    (withX 1 0x30 (quiet isa 8 1)).cur.sp ≠ 0 :=
  ⟨rfl, ⟨List.Pairwise.nil, fun c hc => absurd hc (by simp [withX, withRegs, quiet])⟩, by decide, by decide, by decide⟩

theorem witness_PoprPopsIntoTheRegister :
    (quiet isa 8 0x3FE).cfg.execProfile = .isa ∧ (quiet isa 8 0x3FE).cur.sp.toNat + 1 < ramWords := by decide

/-- The first address outside RAM, and a sum past 2^32; register 3 is written, register 4 is not. -/
theorem witness_DataAddressFaults :
    regCell (withX 1 0xFFFFFFFF (withX 2 1 (withX 3 0 (quiet isa 8 0)))).cur 1 = .value 0xFFFFFFFF ∧
    regCell (withX 1 0xFFFFFFFF (withX 2 1 (withX 3 0 (quiet isa 8 0)))).cur 2 = .value 1 ∧
    regCell (withX 1 0xFFFFFFFF (withX 2 1 (withX 3 0 (quiet isa 8 0)))).cur 3 ≠ .unwritten ∧
    ramWords ≤ (0x400 : Imm16).toNat ∧ ramWords ≤ (0xFFFFFFFF : Word).toNat + (1 : Word).toNat := by decide

/-- V124: the store to the next word. -/
theorem witness_StoreToTheNextWordIsFetched :
    regCell (withX 1 0x01000000 (quiet isa 8 0)).cur 1 = .value 0x01000000 ∧
    (9 : Imm16).toNat = (withX 1 0x01000000 (quiet isa 8 0)).cur.pc.toNat + 1 ∧ (9 : Imm16).toNat < ramWords ∧
    Memory.wf (withX 1 0x01000000 (quiet isa 8 0)).ram :=
  ⟨by decide, by decide, by decide, ⟨List.Pairwise.nil, fun c hc => absurd hc (by simp [withX, withRegs, quiet])⟩⟩

theorem witness_LdlrAndLdurLoadHalves :
    (withX 1 0x1234 (quiet isa 8 0)).cfg.execProfile = .isa ∧
    regCell (withX 1 0x1234 (quiet isa 8 0)).cur 1 = .value 0x1234 := by decide

theorem witness_LogicOperations :
    logicSources.cfg.execProfile = .isa ∧ regCell logicSources.cur 1 = .value 0xABCD1234 ∧
    regCell logicSources.cur 2 = .value 0xFF := by decide

/-- Amounts on both sides of the width, in each mode. -/
theorem witness_ShiftOperations :
    regCell (shiftSources masked 33).cur 1 = .value 0x80000001 ∧ regCell (shiftSources masked 33).cur 6 = .value 33 ∧
    (1 : Nat) = (if (shiftSources masked 33).cfg.shiftMode = .mask5 then (33 : Word).toNat % 32 else (33 : Word).toNat) ∧
    (33 : Nat) = (if (shiftSources isa 33).cfg.shiftMode = .mask5 then (33 : Word).toNat % 32 else (33 : Word).toNat) := by
  decide

/-- No register written; and `regA`, `regB` written but `regC` not. -/
theorem witness_UnwrittenRegisterFaults :
    (quiet isa 8 0).cfg.execProfile = .isa ∧ regCell (quiet isa 8 0).cur 255 = .unwritten ∧
    regCell (withX 1 7 (quiet isa 8 0)).cur 1 ≠ .unwritten ∧ regCell (withX 1 7 (quiet isa 8 0)).cur 2 = .unwritten := by
  decide

end Sys2Proof.Tests
end

/-! Register writes and the default transition: what `OnlyStages` and `Frame` say of an instruction's answer, and the
answers of imtr, the logic instructions and every instruction under `source_literal`. -/

namespace Sys2Proof.Proofs

open Sys2Proof Sys2Proof.Machine Sys2Proof.Safety

/-! ### The effect of an answer -/

/-- Staging writes `nxt` and `pend` only (rules R45, R46). -/
theorem onlyStages_stage (r : Regs) (w : Option PendingWrite) (s : State) : OnlyStages s (stage r w s) :=
  ⟨rfl, rfl, rfl, rfl, rfl, rfl, rfl⟩

/-- Writing one general register and advancing changes nothing beside that register and `pc` (rules R31, R150). -/
theorem frame_stage_advance_writeReg (a : RegIndex) (v : Word) (s : State) :
    Frame [] [a] [] s (stage (advance (writeReg s.cur a v)) none s) where
  sp _ := rfl
  sr _ := rfl
  intr _ := rfl
  sintr _ := rfl
  ioOut _ := rfl
  x i hi := by simpa using regCell_writeReg_of_ne s.cur v (List.ne_of_not_mem_cons hi)
  mem _ _ := rfl

/-- An instruction that answers one register write and `pc + 1` has the whole effect its rule gives: the register holds
the value, and everything else is as it was. -/
theorem exec_effect_of_writeReg {i : Instr} {s : State} {a : RegIndex} {v : Word}
    (h : exec i s = .next (stage (advance (writeReg s.cur a v)) none s)) :
    ∃ t, exec i s = .next t ∧ t.nxt.pc = s.cur.pc + 1 ∧ regCell t.nxt a = .value v ∧
      Frame [] [a] [] s t ∧ OnlyStages s t :=
  ⟨_, h, rfl, regCell_writeReg_self s.cur a v, frame_stage_advance_writeReg a v s, onlyStages_stage _ _ s⟩

/-! ### `source_literal` -/

/-- Only buc, bsr and rsr have a `source_literal` effect of their own (rule R150). -/
theorem exec_eq_fallThrough_of_literal {i : Instr} {s : State} (h : s.cfg.execProfile = .sourceLiteral)
    (hbuc : ∀ t, i ≠ .buc t) (hbsr : ∀ t, i ≠ .bsr t) (hrsr : i ≠ .rsr) : exec i s = fallThrough s := by
  cases i with
  | nop => rfl
  | huc => rfl
  | buc t => exact absurd rfl (hbuc t)
  | bsr t => exact absurd rfl (hbsr t)
  | rsr => exact absurd rfl hrsr
  | _ => exact underIsa_literal h _

/-- Settles O40: the instruction's answer is the default transition, and its fields are read off. -/
theorem sourceLiteralIsTheDefaultTransition : Obligations.SourceLiteralIsTheDefaultTransition :=
  fun _ s h hbuc hbsr hrsr =>
    ⟨_, exec_eq_fallThrough_of_literal h hbuc hbsr hrsr, rfl, rfl, onlyStages_stage _ _ s⟩

/-! ### imtr -/

/-- imtr under `isa` reads both registers before it writes its destination (rules R11, R203). -/
theorem exec_imtr_of_isa {a b c : RegIndex} {s : State} {vb vc : Word} (h : s.cfg.execProfile = .isa)
    (hb : regCell s.cur b = .value vb) (hc : regCell s.cur c = .value vc) (hsum : vb.toNat + vc.toNat < ramWords) :
    exec (.imtr a b c) s =
      .next (stage (advance (writeReg s.cur a (readWord s.ram (vb.toNat + vc.toNat)))) none s) := by
  have hpair : readPair s.cur b c = .ok (vb, vc) := readPair_eq_ok.mpr ⟨hb, hc⟩
  have haddr : indexedAddr vb vc = .ok (vb.toNat + vc.toNat) := indexedAddr_eq_ok.mpr ⟨hsum, rfl⟩
  show execImtr a b c s = _
  rw [execImtr, underIsa_isa h, hpair, need_ok, haddr, need_ok]

/-- Settles O51: imtr answers one register write, of the word at the sum. -/
theorem imtrLoadsFromTheSum : Obligations.ImtrLoadsFromTheSum :=
  fun _ _ _ _ _ _ h hb hc hsum => exec_effect_of_writeReg (exec_imtr_of_isa h hb hc hsum)

/-! ### Logic -/

/-- The shared form of the logic and shift instructions under `isa` applies its function to the old values of both
sources (rules R11, R222 to R226). -/
theorem binaryOp_of_isa (f : Word → Word → Word) (a : RegIndex) {b c : RegIndex} {s : State} {vb vc : Word}
    (h : s.cfg.execProfile = .isa) (hb : regCell s.cur b = .value vb) (hc : regCell s.cur c = .value vc) :
    binaryOp f a b c s = .next (stage (advance (writeReg s.cur a (f vb vc))) none s) := by
  have hpair : readPair s.cur b c = .ok (vb, vc) := readPair_eq_ok.mpr ⟨hb, hc⟩
  rw [binaryOp, underIsa_isa h, hpair, need_ok]

/-- Settles O58: the three are `binaryOp` at the bitwise and, or, exclusive or. -/
theorem logicOperations : Obligations.LogicOperations :=
  fun a _ _ _ _ _ h hb hc =>
    ⟨exec_effect_of_writeReg (binaryOp_of_isa (· &&& ·) a h hb hc),
      exec_effect_of_writeReg (binaryOp_of_isa (· ||| ·) a h hb hc),
      exec_effect_of_writeReg (binaryOp_of_isa (· ^^^ ·) a h hb hc)⟩

end Sys2Proof.Proofs

/-! What one instruction and one tick can stage, said once; what an instruction reads; and from these the invariant of
the block, its noninterference, the sequential view, the snapshot, the host's input moves and the state after reset. -/

namespace Sys2Proof.Proofs

open Sys2Proof Sys2Proof.Machine Sys2Proof.Safety

/-! ### What an instruction can stage -/

/-- The register copy and the RAM write that instruction `i` can stage from the committed state `s`: which fields it moves,
under which guard, with a value it reads or computes left open. The cases that name no instruction move `pc` or write one
general register only, so nothing below asks which instruction it was. -/
inductive Effect (s : State) : Instr → Regs → Option PendingWrite → Prop
  | fallThrough (i : Instr) : Effect s i (advance s.cur) none
  | jump (i : Instr) (pc : Word) : Effect s i { s.cur with pc := pc } none
  | writeReg (i : Instr) (a : RegIndex) (v : Word) : Effect s i (advance (writeReg s.cur a v)) none
  | seto (p : PortIndex) (mask value : Byte) (q : PortIndex) (v : Byte) :
      Effect s (.seto p mask value) (advance (writeOutPort s.cur q v)) none
  | rtio (a : RegIndex) (p q : PortIndex) (v : Byte) : Effect s (.rtio a p) (advance (writeOutPort s.cur q v)) none
  | tsti (p : PortIndex) (mask value port : Byte) (hisa : s.cfg.execProfile = .isa) :
      Effect s (.tsti p mask value) (advance { s.cur with sr := testResult port mask value }) none
  | sei : Effect s .sei (advance { s.cur with intr := allLinesEnabled }) none
  | cli : Effect s .cli (advance { s.cur with intr := allLinesDisabled }) none
  | bsr (t : Address24) (hsp : s.cur.sp.toNat < ramWords) :
      Effect s (.bsr t) { s.cur with sp := s.cur.sp - 1, pc := targetPc t }
        (some { addr := s.cur.sp.toNat, value := s.cur.pc + 1 })
  | rsr (v : Word) : Effect s .rsr { s.cur with sp := s.cur.sp + 1, pc := v } none
  | rir (v : Word) : Effect s .rir { s.cur with sp := s.cur.sp + 1, pc := v, intr := s.cur.sintr } none
  | rtm (a : RegIndex) (n : Imm16) (w : PendingWrite) (hw : w.addr < ramWords) :
      Effect s (.rtm a n) (advance s.cur) (some w)
  | rtim (a b c : RegIndex) (w : PendingWrite) (hw : w.addr < ramWords) :
      Effect s (.rtim a b c) (advance s.cur) (some w)
  | pshr (a : RegIndex) (v : Word) (hsp : s.cur.sp.toNat < ramWords) :
      Effect s (.pshr a) (advance { s.cur with sp := s.cur.sp - 1 }) (some { addr := s.cur.sp.toNat, value := v })
  | popr (a : RegIndex) (v : Word) :
      Effect s (.popr a) (advance (writeReg { s.cur with sp := s.cur.sp + 1 } a v)) none

/-- A next state that is answered is `s` with a register copy and a RAM write staged that `P` allows. -/
def Stages (P : Regs → Option PendingWrite → Prop) (s : State) (o : Result) : Prop :=
  ∀ t, o = .next t → ∃ r w, t = stage r w s ∧ P r w

section
variable {P : Regs → Option PendingWrite → Prop} {s : State}

theorem Stages.next {r : Regs} {w : Option PendingWrite} (h : P r w) : Stages P s (.next (stage r w s)) :=
  fun _ e => ⟨r, w, (Host.Outcome.next.inj e).symm, h⟩

theorem Stages.need {α : Type} {x : Except Fault α} {k : α → Result} (h : ∀ v, x = .ok v → Stages P s (k v)) :
    Stages P s (need x k) := fun t e =>
  have ⟨v, hv, hk⟩ := need_eq_next.mp e
  h v hv t hk

theorem Stages.underIsa {e : Result} (hd : P (advance s.cur) none) (h : s.cfg.execProfile = .isa → Stages P s e) :
    Stages P s (underIsa s e) := by
  rcases underIsa_cases s e with ⟨hp, e'⟩ | ⟨_, e'⟩ <;> rw [e']
  · exact h hp
  · exact .next hd

end

theorem binaryOp_stages (i : Instr) (f : Word → Word → Word) (a b c : RegIndex) (s : State) :
    Stages (Effect s i) s (binaryOp f a b c s) :=
  .underIsa (.fallThrough i) fun _ => .need fun _ _ => .next (.writeReg i a _)

/-- Everything an instruction can do when it answers a next state (rules R150 to R227). -/
theorem exec_stages (i : Instr) (s : State) : Stages (Effect s i) s (exec i s) := by
  cases i with
  | nop => exact .next (.fallThrough _)
  | huc => exact .next (.fallThrough _)
  | buc t => exact .next (.jump _ _)
  | bic t =>
    refine .underIsa (.fallThrough _) fun _ => ?_
    split
    · exact .next (.jump _ _)
    · exact .next (.fallThrough _)
  | seto p m v => exact .underIsa (.fallThrough _) fun _ => .need fun _ _ => .next (.seto ..)
  | tsti p m v => exact .underIsa (.fallThrough _) fun hisa => .need fun _ _ => .next (.tsti p m v _ hisa)
  | bsr t =>
    refine .need fun ⟨_, _⟩ hpush => ?_
    obtain ⟨hsp, -, rfl, rfl⟩ := push_eq_ok.mp hpush
    exact .next (.bsr t hsp)
  | rsr =>
    refine .need fun ⟨v, _⟩ hpop => ?_
    obtain rfl := pop_ok_regs hpop
    exact .next (.rsr v)
  | rir =>
    refine .underIsa (.fallThrough _) fun _ => .need fun ⟨v, _⟩ hpop => ?_
    obtain ⟨-, -, rfl⟩ := popIsa_eq_ok.mp hpop
    exact .next (.rir v)
  | sei => exact .underIsa (.fallThrough _) fun _ => .next .sei
  | cli => exact .underIsa (.fallThrough _) fun _ => .next .cli
  | mtr a n => exact .underIsa (.fallThrough _) fun _ => .need fun _ _ => .next (.writeReg ..)
  | rtm a n =>
    exact .underIsa (.fallThrough _) fun _ => .need fun _ _ => .need fun _ hea =>
      have ⟨hlt, heq⟩ := absoluteAddr_eq_ok.mp hea
      .next (.rtm a n _ (heq ▸ hlt))
  | imtr a b c =>
    exact .underIsa (.fallThrough _) fun _ => .need fun _ _ => .need fun _ _ => .next (.writeReg ..)
  | rtim a b c =>
    exact .underIsa (.fallThrough _) fun _ => .need fun _ _ => .need fun _ _ => .need fun _ hea =>
      have ⟨hlt, heq⟩ := indexedAddr_eq_ok.mp hea
      .next (.rtim a b c _ (heq ▸ hlt))
  | pshr a =>
    refine .underIsa (.fallThrough _) fun _ => .need fun v _ => .need fun ⟨_, _⟩ hpush => ?_
    obtain ⟨hsp, -, rfl, rfl⟩ := push_eq_ok.mp hpush
    exact .next (.pshr a v hsp)
  | popr a =>
    refine .underIsa (.fallThrough _) fun _ => .need fun ⟨v, _⟩ hpop => ?_
    obtain ⟨-, -, rfl⟩ := popIsa_eq_ok.mp hpop
    exact .next (.popr a v)
  | rtio a p => exact .underIsa (.fallThrough _) fun _ => .need fun _ _ => .need fun _ _ => .next (.rtio ..)
  | iotr a p => exact .underIsa (.fallThrough _) fun _ => .need fun _ _ => .next (.writeReg ..)
  | ldlr a n => exact .underIsa (.fallThrough _) fun _ => .next (.writeReg ..)
  | ldur a n => exact .underIsa (.fallThrough _) fun _ => .need fun _ _ => .next (.writeReg ..)
  | andr a b c => exact binaryOp_stages _ _ a b c s
  | orr a b c => exact binaryOp_stages _ _ a b c s
  | xorr a b c => exact binaryOp_stages _ _ a b c s
  | srlr a b c => exact binaryOp_stages _ _ a b c s
  | sllr a b c => exact binaryOp_stages _ _ a b c s

/-! ### Who writes what -/

section
variable {s : State} {i : Instr} {r : Regs} {w : Option PendingWrite}

theorem Effect.writer_of_sp_ne (h : Effect s i r w) (hne : r.sp ≠ s.cur.sp) :
    (∃ a, i = .bsr a) ∨ i = .rsr ∨ i = .rir ∨ (∃ a, i = .pshr a) ∨ ∃ a, i = .popr a := by
  cases h with
  | bsr t _ => exact .inl ⟨t, rfl⟩
  | rsr _ => exact .inr (.inl rfl)
  | rir _ => exact .inr (.inr (.inl rfl))
  | pshr a _ _ => exact .inr (.inr (.inr (.inl ⟨a, rfl⟩)))
  | popr a _ => exact .inr (.inr (.inr (.inr ⟨a, rfl⟩)))
  | _ => exact absurd rfl hne

theorem Effect.writer_of_sr_ne (h : Effect s i r w) (hne : r.sr ≠ s.cur.sr) : ∃ p m v, i = .tsti p m v := by
  cases h with
  | tsti p m v _ _ => exact ⟨p, m, v, rfl⟩
  | _ => exact absurd rfl hne

theorem Effect.writer_of_intr_ne (h : Effect s i r w) (hne : r.intr ≠ s.cur.intr) :
    i = .sei ∨ i = .cli ∨ i = .rir := by
  cases h with
  | sei => exact .inl rfl
  | cli => exact .inr (.inl rfl)
  | rir _ => exact .inr (.inr rfl)
  | _ => exact absurd rfl hne

theorem Effect.sintr_eq (h : Effect s i r w) : r.sintr = s.cur.sintr := by cases h <;> rfl

theorem Effect.writer_of_ioOut_ne (h : Effect s i r w) (hne : r.ioOut ≠ s.cur.ioOut) :
    (∃ p m v, i = .seto p m v) ∨ ∃ a p, i = .rtio a p := by
  cases h with
  | seto p m v _ _ => exact .inl ⟨p, m, v, rfl⟩
  | rtio a p _ _ => exact .inr ⟨a, p, rfl⟩
  | _ => exact absurd rfl hne

theorem Effect.writer_of_write (h : Effect s i r w) (hne : w ≠ none) :
    (∃ a, i = .bsr a) ∨ (∃ a n, i = .rtm a n) ∨ (∃ a b c, i = .rtim a b c) ∨ ∃ a, i = .pshr a := by
  cases h with
  | bsr t _ => exact .inl ⟨t, rfl⟩
  | rtm a n _ _ => exact .inr (.inl ⟨a, n, rfl⟩)
  | rtim a b c _ _ => exact .inr (.inr (.inl ⟨a, b, c, rfl⟩))
  | pshr a _ _ => exact .inr (.inr (.inr ⟨a, rfl⟩))
  | _ => exact absurd rfl hne

theorem Effect.addr_lt (h : Effect s i r w) : ∀ p, w = some p → p.addr < ramWords := by
  rintro p rfl
  cases h with
  | bsr _ hsp => exact hsp
  | rtm _ _ _ hw => exact hw
  | rtim _ _ _ _ hw => exact hw
  | pshr _ _ hsp => exact hsp

end

/-- Settles O23: each clause is read off what the instruction can stage. -/
theorem whoWritesWhat : Obligations.WhoWritesWhat := by
  intro i s t h
  obtain ⟨r, w, rfl, he⟩ := exec_stages i s t h
  exact ⟨he.writer_of_sp_ne, he.writer_of_sr_ne, he.writer_of_intr_ne, he.sintr_eq, he.writer_of_ioOut_ne,
    he.writer_of_write, onlyStages_stage r w s⟩

/-! ### What a tick can stage -/

/-- What a tick can stage from the committed state `c`: an interrupt entry (rule R256) or an instruction's effect. -/
inductive TickEffect (c : State) : Regs → Option PendingWrite → Prop
  | enter (n : Nat) (hirq : c.cfg.irqModel = .vectored) (hsp : c.cur.sp.toNat < ramWords) :
      TickEffect c { c.cur with sp := c.cur.sp - 1, sintr := c.cur.intr, intr := 0, pc := BitVec.ofNat 32 n }
        (some { addr := c.cur.sp.toNat, value := c.cur.pc })
  | run {i : Instr} {r : Regs} {w : Option PendingWrite} (h : Effect c i r w) : TickEffect c r w

theorem irqModel_of_takenLine {c : State} {n : Nat} (h : takenLine c = some n) : c.cfg.irqModel = .vectored := by
  cases hm : c.cfg.irqModel with
  | absent => rw [takenLine_absent hm] at h; cases h
  | vectored => rfl

theorem enterInterrupt_stages {c : State} {n : Nat} (h : takenLine c = some n) :
    Stages (TickEffect c) c (enterInterrupt n c) := by
  intro t ht
  obtain ⟨hsp, -, rfl⟩ := enterInterrupt_eq_next.mp ht
  exact ⟨_, _, rfl, .enter n (irqModel_of_takenLine h) hsp⟩

theorem exec_stages_tickEffect (i : Instr) (c : State) : Stages (TickEffect c) c (exec i c) := fun t ht =>
  have ⟨r, w, e, h⟩ := exec_stages i c t ht
  ⟨r, w, e, .run h⟩

/-- A tick ends with its effect staged or with a fault recorded, on the state it committed (rule R242, phase 5). -/
theorem finishTick_stages {P : Regs → Option PendingWrite → Prop} {c t : State} {l : LastInstr} {o : Result}
    (ho : Stages P c o) (h : finishTick c l o = .next t) :
    (∃ r w, P r w ∧ t = { stage r w c with lastInstr := l }) ∨ ∃ f, t = recordFault c f l := by
  rcases finishTick_eq_next.mp h with ⟨u, hu, rfl⟩ | ⟨f, _, rfl⟩
  · obtain ⟨r, w, rfl, hP⟩ := ho u hu
    exact .inl ⟨r, w, hP, rfl⟩
  · exact .inr ⟨f, rfl⟩

/-- A faulted block is stuck (rule R244). -/
theorem eq_of_step_of_faulted {s t : State} (hs : s.fault ≠ none) (h : step s = .next t) : t = s := by
  rcases step_cases h with ⟨_, e⟩ | ⟨hf, _⟩ | ⟨hf, _⟩ | ⟨hf, _⟩
  · exact e
  all_goals exact absurd hf hs

/-- The two ends of a tick of an unfaulted block, with what `lastInstr` can name (rules R47, R242). -/
theorem step_stages {s t : State} (hs : s.fault = none) (h : step s = .next t) :
    ∃ l : LastInstr, (∀ d, l = .instr d → d.address = s.nxt.pc.toNat) ∧
      ((∃ r w, TickEffect (commit s) r w ∧ t = { stage r w (commit s) with lastInstr := l }) ∨
        ∃ f, t = recordFault (commit s) f l) := by
  rcases step_cases h with ⟨hf, _⟩ | ⟨_, n, hn, h⟩ | ⟨_, _, f, _, rfl⟩ | ⟨_, _, i, _, h⟩
  · exact absurd hs hf
  · exact ⟨.irqEntry n, (fun _ e => nomatch e), finishTick_stages (enterInterrupt_stages hn) h⟩
  · exact ⟨.none, (fun _ e => nomatch e), .inr ⟨f, rfl⟩⟩
  · refine ⟨lastOf (commit s) i, ?_, finishTick_stages (exec_stages_tickEffect i _) h⟩
    rintro d hd
    cases hd
    rfl

/-- Settles O22: a tick leaves the committed copy, RAM and the inputs as it committed them. -/
theorem snapshotShowsTheCommittedState : Obligations.SnapshotShowsTheCommittedState := by
  intro s t hs h
  obtain ⟨l, hl, ⟨r, w, -, rfl⟩ | ⟨f, rfl⟩⟩ := step_stages hs h
  · exact ⟨rfl, rfl, rfl, rfl, rfl, rfl, rfl, hl⟩
  · exact ⟨rfl, rfl, rfl, rfl, rfl, rfl, rfl, hl⟩

/-! ### Written registers -/

theorem regCell_writeReg_ne_unwritten {r : Regs} {j : RegIndex} (i : RegIndex) (v : Word)
    (h : regCell r j ≠ .unwritten) : regCell (writeReg r i v) j ≠ .unwritten := by
  rw [regCell_writeReg]
  split
  · exact nofun
  · exact h

theorem Effect.written {s : State} {i : Instr} {r : Regs} {w : Option PendingWrite} (h : Effect s i r w)
    {j : RegIndex} (hj : regCell s.cur j ≠ .unwritten) : regCell r j ≠ .unwritten := by
  cases h with
  | writeReg _ a v => exact regCell_writeReg_ne_unwritten a v hj
  | popr a v => exact regCell_writeReg_ne_unwritten a v hj
  | _ => exact hj

theorem TickEffect.written {c : State} {r : Regs} {w : Option PendingWrite} (h : TickEffect c r w)
    {j : RegIndex} (hj : regCell c.cur j ≠ .unwritten) : regCell r j ≠ .unwritten := by
  cases h with
  | enter n _ _ => exact hj
  | run h => exact h.written hj

/-- Settles O24: a faulted block keeps its state, a recorded fault keeps the committed registers, and no effect of a tick
unwrites a register. -/
theorem writtenRegistersStayWritten : Obligations.WrittenRegistersStayWritten := by
  intro s t j h hj
  by_cases hf : s.fault = none
  · obtain ⟨l, -, ⟨r, w, he, rfl⟩ | ⟨f, rfl⟩⟩ := step_stages hf h
    · exact he.written hj
    · exact hj
  · rwa [eq_of_step_of_faulted hf h]

/-! ### The invariant -/

section
variable {c : Config} {r : Regs}

theorem regsInv_reset (c : Config) : RegsInv c (Regs.reset c) where
  sr_reserved := .inl rfl
  intr_mask := .inl rfl
  sintr_mask := .inl rfl
  ports := List.length_replicate
  sintr_unused _ := rfl
  all_written h i := by simp [regCell, Regs.reset, h]
  literal_sr _ := rfl

/-- `pc` and `sp` are free in the invariant. -/
theorem regsInv_setPcSp (h : RegsInv c r) (pc sp : Word) : RegsInv c { r with pc := pc, sp := sp } := { h with }

theorem regsInv_writeReg (h : RegsInv c r) (a : RegIndex) (v : Word) : RegsInv c (writeReg r a v) :=
  { h with all_written := fun hz i => regCell_writeReg_ne_unwritten a v (h.all_written hz i) }

theorem regsInv_writeOutPort (h : RegsInv c r) (p : PortIndex) (v : Byte) : RegsInv c (writeOutPort r p v) :=
  { h with ports := List.length_set.trans h.ports }

/-- Only `isa` tests a port (rule R38). -/
theorem regsInv_setSr (h : RegsInv c r) (hisa : c.execProfile = .isa) (port mask value : Byte) :
    RegsInv c { r with sr := testResult port mask value } :=
  { h with
    sr_reserved := testResult_cases port mask value
    literal_sr := fun hlit => absurd (hisa.symm.trans hlit) (by decide) }

theorem regsInv_setIntr (h : RegsInv c r) {m : Byte} (hm : m = 0 ∨ m = 0xFF) : RegsInv c { r with intr := m } :=
  { h with intr_mask := hm }

/-- Interrupt entry saves the mask and clears it; there is none under `absent` (rules R252, R256). -/
theorem regsInv_saveMask (h : RegsInv c r) (hirq : c.irqModel = .vectored) :
    RegsInv c { r with sintr := r.intr, intr := 0 } :=
  { h with
    intr_mask := .inl rfl
    sintr_mask := h.intr_mask
    sintr_unused := fun habs => absurd (hirq.symm.trans habs) (by decide) }

end

theorem Effect.regsInv {s : State} {i : Instr} {r : Regs} {w : Option PendingWrite} (h : Effect s i r w)
    (hi : RegsInv s.cfg s.cur) : RegsInv s.cfg r := by
  cases h with
  | writeReg _ a v => exact regsInv_setPcSp (regsInv_writeReg hi a v) _ _
  | seto _ _ _ q v => exact regsInv_setPcSp (regsInv_writeOutPort hi q v) _ _
  | rtio _ _ q v => exact regsInv_setPcSp (regsInv_writeOutPort hi q v) _ _
  | tsti _ mask value port hisa => exact regsInv_setPcSp (regsInv_setSr hi hisa port mask value) _ _
  | sei => exact regsInv_setPcSp (regsInv_setIntr hi (.inr rfl)) _ _
  | cli => exact regsInv_setPcSp (regsInv_setIntr hi (.inl rfl)) _ _
  | rir v => exact regsInv_setPcSp (regsInv_setIntr hi hi.sintr_mask) _ _
  | popr a v => exact regsInv_setPcSp (regsInv_writeReg hi a v) _ _
  | _ => exact regsInv_setPcSp hi _ _

theorem TickEffect.regsInv {c : State} {r : Regs} {w : Option PendingWrite} (h : TickEffect c r w)
    (hi : RegsInv c.cfg c.cur) : RegsInv c.cfg r := by
  cases h with
  | enter n hirq _ => exact regsInv_setPcSp (regsInv_saveMask hi hirq) _ _
  | run h => exact h.regsInv hi

theorem TickEffect.addr_lt {c : State} {r : Regs} {w : Option PendingWrite} (h : TickEffect c r w) :
    ∀ p, w = some p → p.addr < ramWords := by
  cases h with
  | enter n _ hsp => rintro _ ⟨⟩; exact hsp
  | run h => exact h.addr_lt

/-- The commit phase of an unfaulted block keeps the invariant (rules R45, R46). -/
theorem blockInv_commit {s : State} (h : BlockInv s) (hs : s.fault = none) : BlockInv (commit s) where
  ram := applyPend_wf h.ram h.pend
  pend := nofun
  cur := h.nxt
  nxt := h.nxt
  inputs := h.inputs
  precise r hr := by rw [commit_fault, hs] at hr; cases hr

/-- Staging on an unfaulted block keeps the invariant if what is staged meets it. -/
theorem blockInv_stage {c : State} (h : BlockInv c) (hc : c.fault = none) {r : Regs} {w : Option PendingWrite}
    (hr : RegsInv c.cfg r) (hw : ∀ p, w = some p → p.addr < ramWords) (l : LastInstr) :
    BlockInv { stage r w c with lastInstr := l } where
  ram := h.ram
  pend := hw
  cur := h.cur
  nxt := hr
  inputs := h.inputs
  precise q hq := by rw [show c.fault = some q from hq] at hc; cases hc

/-- A fault recorded on the state just committed is precise (rule R244). -/
theorem blockInv_recordFault {s : State} (h : BlockInv (commit s)) (f : Fault) (l : LastInstr) :
    BlockInv (recordFault (commit s) f l) :=
  { h with precise := by rintro _ ⟨⟩; exact ⟨rfl, rfl, rfl⟩ }

/-- Settles O20: the commit phase keeps the invariant, and so does either end of the tick. -/
theorem everyTickKeepsTheInvariant : Obligations.EveryTickKeepsTheInvariant := by
  intro s t hi h
  by_cases hf : s.fault = none
  · have hc : BlockInv (commit s) := blockInv_commit hi hf
    obtain ⟨l, -, ⟨r, w, he, rfl⟩ | ⟨f, rfl⟩⟩ := step_stages hf h
    · exact blockInv_stage hc hf (he.regsInv hc.cur) he.addr_lt l
    · exact blockInv_recordFault hc f l
  · rwa [eq_of_step_of_faulted hf h]

/-! ### What an instruction reads -/

/-- The states `s` and `s'` agree on all an instruction may read beside the input ports. -/
structure SameView (s s' : State) : Prop where
  cfg : s'.cfg = s.cfg
  ram : s'.ram = s.ram
  cur : s'.cur = s.cur

/-- The answer with its staged registers and RAM write put on the state `s'`. -/
def restage (s' : State) : Result → Result
  | .next t    => .next (stage t.nxt t.pend s')
  | .fault f   => .fault f
  | .refused r => .refused r

@[simp] theorem restage_next (s' t : State) : restage s' (.next t) = .next (stage t.nxt t.pend s') := rfl
@[simp] theorem restage_fault (s' : State) (f : Fault) : restage s' (.fault f) = .fault f := rfl

@[simp] theorem restage_need {α : Type} (s' : State) (x : Except Fault α) (k : α → Result) :
    restage s' (need x k) = need x fun v => restage s' (k v) := by
  cases x <;> rfl

section
variable {s s' : State} (h : SameView s s')
include h

theorem fallThrough_restage : fallThrough s' = restage s' (fallThrough s) := by
  simp [fallThrough, h.cur]

theorem underIsa_restage {e e' : Result} (he : e' = restage s' e) : underIsa s' e' = restage s' (underIsa s e) := by
  unfold underIsa
  rw [h.cfg]
  split
  · exact he
  · exact fallThrough_restage h

theorem checkPort_congr (p : PortIndex) : checkPort s' p = checkPort s p := by rw [checkPort, checkPort, h.cfg]

theorem popIsa_congr : popIsa s' = popIsa s := by rw [popIsa, popIsa, h.ram, h.cur]

theorem pop_congr : pop s' = pop s := by rw [pop, pop, h.cfg, popIsa_congr h, popLiteral, popLiteral, h.ram, h.cur]

theorem binaryOp_restage (f : Word → Word → Word) (a b c : RegIndex) :
    binaryOp f a b c s' = restage s' (binaryOp f a b c s) :=
  underIsa_restage h (by simp [h.cur])

/-- Interrupt entry reads the committed registers only (rule R256). -/
theorem enterInterrupt_restage (n : Nat) : enterInterrupt n s' = restage s' (enterInterrupt n s) := by
  simp [enterInterrupt, h.cur]

theorem fetchDecode_congr : fetchDecode s' = fetchDecode s := by
  rw [fetchDecode, fetchDecode, fetch, fetch, h.ram, h.cur]

theorem exec_restage {i : Instr}
    (hin : s'.ioIn = s.ioIn ∨ (∀ p m v, i ≠ .tsti p m v) ∧ ∀ a p, i ≠ .iotr a p) :
    exec i s' = restage s' (exec i s) := by
  cases i with
  | nop => exact fallThrough_restage h
  | huc => exact fallThrough_restage h
  | buc t => simp [exec, execBuc, h.cur]
  | bic t =>
    refine underIsa_restage h ?_
    rw [h.cur]
    split
    · rfl
    · exact fallThrough_restage h
  | seto p m v => exact underIsa_restage h (by simp [checkPort_congr h, h.cur])
  | tsti p m v =>
    have hio : s'.ioIn = s.ioIn := hin.resolve_right fun hne => hne.1 p m v rfl
    exact underIsa_restage h (by simp [checkPort_congr h, inPort, h.cur, hio])
  | bsr t => simp [exec, execBsr, h.cur]
  | rsr => simp [exec, execRsr, pop_congr h]
  | rir => exact underIsa_restage h (by simp [returnFromInterrupt, popIsa_congr h, h.cur])
  | sei => exact underIsa_restage h (by simp [h.cur])
  | cli => exact underIsa_restage h (by simp [h.cur])
  | mtr a n => exact underIsa_restage h (by simp [h.cur, h.ram])
  | rtm a n => exact underIsa_restage h (by simp [h.cur])
  | imtr a b c => exact underIsa_restage h (by simp [h.cur, h.ram])
  | rtim a b c => exact underIsa_restage h (by simp [h.cur])
  | pshr a => exact underIsa_restage h (by simp [h.cur])
  | popr a => exact underIsa_restage h (by simp [popIsa_congr h])
  | rtio a p => exact underIsa_restage h (by simp [checkPort_congr h, h.cur])
  | iotr a p =>
    have hio : s'.ioIn = s.ioIn := hin.resolve_right fun hne => hne.2 a p rfl
    exact underIsa_restage h (by simp [checkPort_congr h, inPort, h.cur, hio])
  | ldlr a n => exact underIsa_restage h (by simp [h.cur])
  | ldur a n => exact underIsa_restage h (by simp [h.cur])
  | andr a b c => exact binaryOp_restage h _ a b c
  | orr a b c => exact binaryOp_restage h _ a b c
  | xorr a b c => exact binaryOp_restage h _ a b c
  | srlr a b c => simpa [exec, execSrlr, h.cfg] using binaryOp_restage h (shiftRight s.cfg.shiftMode) a b c
  | sllr a b c => simpa [exec, execSllr, h.cfg] using binaryOp_restage h (shiftLeft s.cfg.shiftMode) a b c

end

/-- Settles O18: the two states differ in fields that no instruction reads, and both answers stage the same. -/
theorem programsCannotSeeTheFaultRecord : Obligations.ProgramsCannotSeeTheFaultRecord := by
  intro i s f l
  have hr := exec_restage (s := s) (s' := { s with fault := f, lastInstr := l }) ⟨rfl, rfl, rfl⟩ (i := i) (.inl rfl)
  refine ⟨fun t ht => ?_, fun g hg => by rw [hr, hg, restage_fault]⟩
  obtain ⟨r, w, rfl⟩ := exec_eq_stage ht
  rw [hr, ht]
  rfl

/-- Settles O19: only tsti and iotr would tell the two states apart. -/
theorem onlyTstiAndIotrReadInputs : Obligations.OnlyTstiAndIotrReadInputs := by
  intro i s inputs htsti hiotr
  have hr := exec_restage (s := s) (s' := { s with ioIn := inputs }) ⟨rfl, rfl, rfl⟩ (.inr ⟨htsti, hiotr⟩)
  refine ⟨fun t ht => ?_, fun g hg => by rw [hr, hg, restage_fault]⟩
  obtain ⟨r, w, rfl⟩ := exec_eq_stage ht
  rw [hr, ht]
  rfl

/-! ### The sequential view -/

/-- An answer as the sequential view shows it: the committed state it leads to, or the fault (rule R52). -/
def committedAnswer : Result → Host.Outcome Committed Fault Refusal
  | .next t    => .next (committed t)
  | .fault f   => .fault f
  | .refused r => .refused r

/-- The engine state that `sequentialStep` builds from the committed state agrees with the one the tick committed. -/
theorem sameView_ofCommitted (s : State) :
    SameView (commit s) (ofCommitted s.cfg s.ioIn s.irqPending (committed s)) := ⟨rfl, rfl, rfl⟩

theorem sequentialStep_of_taken {s : State} {n : Nat} (h : takenLine (commit s) = some n) :
    sequentialStep s.cfg s.ioIn s.irqPending (committed s) =
      committedAnswer (enterInterrupt n (ofCommitted s.cfg s.ioIn s.irqPending (committed s))) := by
  have h' : takenLine (ofCommitted s.cfg s.ioIn s.irqPending (committed s)) = some n := h
  simp only [sequentialStep, h']
  rfl

theorem sequentialStep_of_untaken {s : State} (h : takenLine (commit s) = none) :
    sequentialStep s.cfg s.ioIn s.irqPending (committed s) =
      committedAnswer (need (fetchDecode (commit s)) fun i =>
        exec i (ofCommitted s.cfg s.ioIn s.irqPending (committed s))) := by
  have h' : takenLine (ofCommitted s.cfg s.ioIn s.irqPending (committed s)) = none := h
  simp only [sequentialStep, h', fetchDecode_congr (sameView_ofCommitted s)]
  rfl

/-- The answer of an unfaulted tick and its record, as the sequential view shows them: only what is staged counts. -/
theorem finishTick_sequential {P : Regs → Option PendingWrite → Prop} {c c' t : State} {l : LastInstr} {o : Result}
    (hc : c.fault = none) (hram : c'.ram = c.ram) (ho : Stages P c o) (h : finishTick c l o = .next t) :
    (t.fault = none → committedAnswer (restage c' o) = .next (committed t)) ∧
    (∀ r, t.fault = some r → committedAnswer (restage c' o) = .fault r.reason) := by
  rcases finishTick_eq_next.mp h with ⟨u, rfl, rfl⟩ | ⟨f, rfl, rfl⟩
  · obtain ⟨r, w, rfl, -⟩ := ho u rfl
    refine ⟨fun _ => ?_, fun q hq => ?_⟩
    · simp [committedAnswer, committed, hram, commit]
    · rw [show c.fault = some q from hq] at hc
      cases hc
  · refine ⟨nofun, ?_⟩
    rintro _ ⟨⟩
    rfl

/-- A reset leaves nothing staged, so its committed state is the reset state itself (rule R53). -/
theorem committed_of_resetWith {c : Config} {image : List Word} {s t : State} (h : resetWith c image s = .next t) :
    committed t = { ram := t.ram, regs := t.cur } := by
  unfold resetWith at h
  split at h <;> cases h
  rfl

/-- Settles O21: the tick and `Step` take the same branch, and there each answers what the other does, restaged. -/
theorem engineRefinesTheSequentialView : Obligations.EngineRefinesTheSequentialView := by
  refine ⟨fun s t hs h => ?_, fun _ _ _ _ => committed_of_resetWith⟩
  have hv := sameView_ofCommitted s
  rcases step_cases h with ⟨hf, _⟩ | ⟨_, n, hn, h⟩ | ⟨_, hn, f, hd, rfl⟩ | ⟨_, hn, i, hd, h⟩
  · exact absurd hs hf
  · rw [sequentialStep_of_taken hn, enterInterrupt_restage hv]
    exact finishTick_sequential (c := commit s) hs hv.ram (enterInterrupt_stages hn) h
  · rw [sequentialStep_of_untaken hn, hd, need_error]
    refine ⟨nofun, ?_⟩
    rintro _ ⟨⟩
    rfl
  · rw [sequentialStep_of_untaken hn, hd, need_ok, exec_restage hv (.inl rfl)]
    exact finishTick_sequential (c := commit s) hs hv.ram (exec_stages i _) h

/-! ### The host's input moves -/

theorem withLine_getLsbD (pending : Byte) {n m : Nat} (hn : n < 8) (raised : Bool) :
    (withLine pending n raised).getLsbD m = if m = n then raised else pending.getLsbD m := by
  by_cases hm : m = n
  · subst hm
    cases raised <;> simp [withLine, hn]
  · have hm' : n ≠ m := Ne.symm hm
    have hlt : pending.getLsbD m = true → m < 8 := BitVec.lt_of_getLsbD
    cases raised <;> simp_all [withLine, BitVec.getLsbD_twoPow]

/-- Settles O32: a port move is one list update and a line move one bit. -/
theorem hostInputMoves : Obligations.HostInputMoves := by
  intro s
  refine ⟨fun p v hlen => ⟨fun hp => ?_, fun hp => ?_⟩, fun n raised hirq hn => ?_⟩
  · refine ⟨_, if_pos hp, List.getElem?_set_self (hlen ▸ hp), fun q hq => List.getElem?_set_ne hq.symm, rfl⟩
  · exact if_neg (Nat.not_lt.mpr hp)
  · refine ⟨{ s with irqPending := withLine s.irqPending n raised }, ?_, ?_, fun m hm => ?_, rfl⟩
    · simp [hostStep, hirq, hn]
    · rw [withLine_getLsbD _ hn, if_pos rfl]
    · rw [withLine_getLsbD _ hn, if_neg hm]

/-! ### The state after reset -/

/-- Settles O12: the empty RAM is canonical, and a register copy after reset meets its invariant. -/
theorem resetMeetsInvariant : Obligations.ResetMeetsInvariant where
  ram := reset_ram_wf
  pend := nofun
  cur := regsInv_reset Config.atReset
  nxt := regsInv_reset Config.atReset
  inputs := by rw [State.reset, List.length_map, List.length_range]
  precise := nofun

theorem readWord_nil (i : Nat) : readWord [] i = 0 := show wordOfBytes 0 0 0 0 = 0 by decide

theorem regCell_reset_of_zero {c : Config} (h : c.regReset = .zero) (i : RegIndex) :
    regCell (Regs.reset c) i = .value 0 := by
  simp [regCell, Regs.reset, h]

/-- Settles O11: the fields are the literals of `State.reset`; the registers are 0 by `REG_RESET = zero`. -/
theorem stateAfterReset : Obligations.StateAfterReset :=
  ⟨rfl, rfl, rfl, rfl, rfl, rfl, regCell_reset_of_zero rfl, rfl, resetMeetsInvariant.inputs, readWord_nil, rfl,
    rfl, rfl⟩

end Sys2Proof.Proofs

/-! The port traps of the I/O instructions, and a rtm store into the next word. -/

namespace Sys2Proof.Proofs

open Sys2Proof Sys2Proof.Machine Sys2Proof.Safety

/-! ### Ports that do not exist -/

/-- Whatever an instruction would do with a port, a port that does not exist faults under `isa` (rule R72). -/
theorem underIsa_checkPort_fault {p : PortIndex} {s : State} (h : s.cfg.execProfile = .isa)
    (hp : s.cfg.ioPorts ≤ p.toNat) (k : PortIndex → Result) :
    underIsa s (need (checkPort s p) k) = .fault (.portRange p) := by
  rw [underIsa_isa h, checkPort_eq_error.mpr ⟨hp, rfl⟩, need_error]

/-- A written register is read without a fault (rule R246). -/
theorem exists_readReg_eq_ok {r : Regs} {a : RegIndex} (ha : regCell r a ≠ .unwritten) : ∃ v, readReg r a = .ok v := by
  cases hc : regCell r a with
  | unwritten => exact absurd hc ha
  | value v => exact ⟨v, readReg_eq_ok.mpr hc⟩

/-- rtio of a written register goes on to its port check (rule R184). -/
theorem exec_rtio_portRange {a : RegIndex} {p : PortIndex} {s : State} (h : s.cfg.execProfile = .isa)
    (hp : s.cfg.ioPorts ≤ p.toNat) (ha : regCell s.cur a ≠ .unwritten) :
    exec (.rtio a p) s = .fault (.portRange p) := by
  obtain ⟨v, hv⟩ := exists_readReg_eq_ok ha
  show execRtio a p s = _
  rw [execRtio, hv, need_ok, underIsa_checkPort_fault h hp]

/-- rtio of an unwritten register faults before its port is looked at (rules R184, R249). -/
theorem exec_rtio_unwrittenReg {a : RegIndex} (p : PortIndex) {s : State} (h : s.cfg.execProfile = .isa)
    (ha : regCell s.cur a = .unwritten) : exec (.rtio a p) s = .fault (.unwrittenReg a) := by
  have hread : readReg s.cur a = .error (.unwrittenReg a) := readReg_eq_error.mpr ⟨ha, rfl⟩
  show execRtio a p s = _
  rw [execRtio, underIsa_isa h, hread, need_error]

/-- Settles O48: seto, tsti and iotr begin with the port check, rtio with its register. -/
theorem portFaults : Obligations.PortFaults :=
  fun _ _ h hp =>
    ⟨fun _ _ => underIsa_checkPort_fault h hp _, fun _ _ => underIsa_checkPort_fault h hp _,
      fun _ => underIsa_checkPort_fault h hp _, fun _ => exec_rtio_portRange h hp,
      fun _ => exec_rtio_unwrittenReg _ h⟩

/-! ### A store that the next tick fetches -/

/-- rtm under `isa` stages its register's value for the word at its address (rule R202). -/
theorem exec_rtm_of_isa {a : RegIndex} {n : Imm16} {s : State} {v : Word} (h : s.cfg.execProfile = .isa)
    (ha : regCell s.cur a = .value v) (hn : n.toNat < ramWords) :
    exec (.rtm a n) s = .next (stage (advance s.cur) (some { addr := n.toNat, value := v }) s) := by
  have hread : readReg s.cur a = .ok v := readReg_eq_ok.mpr ha
  have haddr : absoluteAddr n = .ok n.toNat := absoluteAddr_eq_ok.mpr ⟨hn, rfl⟩
  show execRtm a n s = _
  rw [execRtm, underIsa_isa h, hread, need_ok, haddr, need_ok]

/-- The commit phase puts the staged word into RAM (rule R46). -/
theorem readWord_commit_stage {s : State} (hm : Memory.wf s.ram) (r : Regs) (i : Nat) (v : Word) :
    readWord (commit (stage r (some { addr := i, value := v }) s)).ram i = v :=
  readWord_writeWord_self hm.1 i v

/-- What a fetch inside RAM answers (rule R247). -/
theorem fetch_of_lt {c : State} (h : c.cur.pc.toNat < ramWords) : fetch c = .ok (readWord c.ram c.cur.pc.toNat) := by
  rw [fetch, checkAddr_eq_ok.mpr ⟨h, rfl⟩]
  rfl

/-- Below `RAM_WORDS` the advanced `pc` does not wrap (rule R150). -/
theorem toNat_advance_pc {r : Regs} {k : Nat} (hk : k = r.pc.toNat + 1) (hlt : k < ramWords) :
    (advance r).pc.toNat = k := by
  have hbound : k < 1024 := hlt
  rw [advance_pc]
  bv_omega

/-- Settles O56: the word that rtm stages is the one at the advanced `pc`, and the commit phase precedes the fetch. -/
theorem storeToTheNextWordIsFetched : Obligations.StoreToTheNextWordIsFetched := by
  intro a n s v h hm ha hpc hn
  have hnext : (advance s.cur).pc.toNat = n.toNat := toNat_advance_pc hpc hn
  refine ⟨_, exec_rtm_of_isa h ha hn, ?_⟩
  rw [fetch_of_lt (hnext.trans_lt hn), commit_cur, stage_nxt, hnext, readWord_commit_stage hm]

end Sys2Proof.Proofs

/-! The decoder: its two answers, what selects them, decoding of an encoded word, the bits a shape ignores; and the
successors, edges and destinations of the typed instruction. -/

namespace Sys2Proof.Proofs

open Sys2Proof Sys2Proof.Machine Sys2Proof.Safety

/-! ### The decoder, one opcode at a time -/

/-- The instruction of the same mnemonic as `i` whose operands are the fields of `w` that `i`'s shape names (rules R104 to
R109, R111). -/
def readOperands (w : Word) : Instr → Instr
  | .nop => .nop
  | .huc => .huc
  | .buc _ => .buc (address24Of w)
  | .bic _ => .bic (address24Of w)
  | .seto _ _ _ => .seto (byte1 w) (byte2 w) (byte3 w)
  | .tsti _ _ _ => .tsti (byte1 w) (byte2 w) (byte3 w)
  | .bsr _ => .bsr (address24Of w)
  | .rsr => .rsr
  | .rir => .rir
  | .sei => .sei
  | .cli => .cli
  | .mtr _ _ => .mtr (byte1 w) (imm16Of w)
  | .rtm _ _ => .rtm (byte1 w) (imm16Of w)
  | .imtr _ _ _ => .imtr (byte1 w) (byte2 w) (byte3 w)
  | .rtim _ _ _ => .rtim (byte1 w) (byte2 w) (byte3 w)
  | .pshr _ => .pshr (byte1 w)
  | .popr _ => .popr (byte1 w)
  | .rtio _ _ => .rtio (byte1 w) (byte2 w)
  | .iotr _ _ => .iotr (byte1 w) (byte2 w)
  | .ldlr _ _ => .ldlr (byte1 w) (imm16Of w)
  | .ldur _ _ => .ldur (byte1 w) (imm16Of w)
  | .andr _ _ _ => .andr (byte1 w) (byte2 w) (byte3 w)
  | .orr _ _ _ => .orr (byte1 w) (byte2 w) (byte3 w)
  | .xorr _ _ _ => .xorr (byte1 w) (byte2 w) (byte3 w)
  | .srlr _ _ _ => .srlr (byte1 w) (byte2 w) (byte3 w)
  | .sllr _ _ _ => .sllr (byte1 w) (byte2 w) (byte3 w)

/-- An opcode byte selects its row of rule R111, whose shape says which fields are read. -/
theorem decode_of_opcode {w : Word} {i : Instr} (h : byte0 w = i.opcode) : decode w = .ok (readOperands w i) := by
  unfold decode
  rw [h]
  cases i <;> rfl

/-- The opcodes of rule R111 are 0 to 25. -/
theorem opcode_le (i : Instr) : i.opcode.toNat ≤ 25 := by
  cases i <;> simp [Instr.opcode]

/-- The two answers of the decoder: a refusal of an opcode byte above 25, or an instruction with that opcode (rules R102,
R103). -/
theorem decode_cases (w : Word) :
    (25 < (byte0 w).toNat ∧ decode w = .error (.unknownOpcode (byte0 w))) ∨
    ∃ i, decode w = .ok i ∧ i.opcode = byte0 w := by
  unfold decode
  split
  case h_27 =>
    refine .inl ⟨?_, rfl⟩
    simp only [imp_false] at *
    omega
  all_goals
    rename_i h
    exact .inr ⟨_, rfl, BitVec.eq_of_toNat_eq h.symm⟩

/-- A word decodes to `i` exactly if it has `i`'s opcode and `i`'s operands in the fields of its shape. -/
theorem decode_eq_ok {w : Word} {i : Instr} : decode w = .ok i ↔ byte0 w = i.opcode ∧ readOperands w i = i := by
  constructor
  · intro h
    rcases decode_cases w with ⟨_, he⟩ | ⟨j, hj, hop⟩
    · rw [he] at h
      cases h
    · obtain rfl : j = i := Except.ok.inj (hj.symm.trans h)
      exact ⟨hop.symm, Except.ok.inj ((decode_of_opcode hop.symm).symm.trans h)⟩
  · rintro ⟨hop, hi⟩
    rw [decode_of_opcode hop, hi]

/-- Settles O3: the two answers of the decoder, told apart by the opcode byte. -/
theorem decodeRefusesOpcodesAbove25 : Obligations.DecodeRefusesOpcodesAbove25 := by
  intro w
  rcases decode_cases w with ⟨hlt, he⟩ | ⟨i, hi, hop⟩
  · exact ⟨fun _ => he, fun hle => absurd hle (by omega)⟩
  · have hle : (byte0 w).toNat ≤ 25 := hop ▸ opcode_le i
    exact ⟨fun hlt => absurd hle (by omega), fun _ => ⟨i, hi, hop⟩⟩

/-! ### Fields of a word -/

section
variable (w : Word)

theorem byte0_toNat : (byte0 w).toNat = w.toNat / 2 ^ 24 % 2 ^ 8 := by
  rw [byte0, BitVec.extractLsb'_toNat, Nat.shiftRight_eq_div_pow]

theorem byte1_toNat : (byte1 w).toNat = w.toNat / 2 ^ 16 % 2 ^ 8 := by
  rw [byte1, BitVec.extractLsb'_toNat, Nat.shiftRight_eq_div_pow]

theorem byte2_toNat : (byte2 w).toNat = w.toNat / 2 ^ 8 % 2 ^ 8 := by
  rw [byte2, BitVec.extractLsb'_toNat, Nat.shiftRight_eq_div_pow]

theorem byte3_toNat : (byte3 w).toNat = w.toNat % 2 ^ 8 := by
  rw [byte3, BitVec.extractLsb'_toNat, Nat.shiftRight_zero]

theorem address24Of_toNat : (address24Of w).toNat = w.toNat % 2 ^ 24 := by
  rw [address24Of, BitVec.extractLsb'_toNat, Nat.shiftRight_zero]

theorem imm16Of_toNat : (imm16Of w).toNat = w.toNat % 2 ^ 16 := by
  rw [imm16Of, BitVec.extractLsb'_toNat, Nat.shiftRight_zero]

end

/-- `++` on bit vectors as a number (rule R8: the most significant part first). -/
theorem toNat_append_eq {m n : Nat} (x : BitVec m) (y : BitVec n) : (x ++ y).toNat = 2 ^ n * x.toNat + y.toNat := by
  rw [BitVec.toNat_append, Nat.shiftLeft_eq, Nat.mul_comm, ← Nat.two_pow_add_eq_or_of_lt y.isLt]

/-- The operand bits of a shape of three bytes (rules R106, R108). -/
theorem bytes_of_address24 {w : Word} {a b c : Byte} (h : address24Of w = a ++ b ++ c) :
    byte1 w = a ∧ byte2 w = b ∧ byte3 w = c := by
  have hn := congrArg BitVec.toNat h
  rw [toNat_append_eq, toNat_append_eq, address24Of_toNat] at hn
  have := a.isLt
  have := b.isLt
  have := c.isLt
  simp only [BitVec.toNat_eq, byte1_toNat, byte2_toNat, byte3_toNat]
  omega

/-- The operand bits of a shape of a register and an immediate (rules R106, R107). -/
theorem regImm_of_address24 {w : Word} {a : RegIndex} {n : Imm16} (h : address24Of w = a ++ n) :
    byte1 w = a ∧ imm16Of w = n := by
  have hn := congrArg BitVec.toNat h
  rw [toNat_append_eq, address24Of_toNat] at hn
  have := a.isLt
  have := n.isLt
  simp only [BitVec.toNat_eq, byte1_toNat, imm16Of_toNat]
  omega

/-! ### Decoding an encoded word -/

/-- A word with `i`'s operand bits holds `i`'s operands in the fields of its shape (rule R109). -/
theorem readOperands_of_operandBits {w : Word} {i : Instr} (h : address24Of w = i.operandBits) :
    readOperands w i = i := by
  cases i with
  | nop | huc | rsr | rir | sei | cli => rfl
  | buc | bic | bsr => rw [readOperands, h, Instr.operandBits]
  | seto | tsti | imtr | rtim | andr | orr | xorr | srlr | sllr =>
    obtain ⟨h1, h2, h3⟩ := bytes_of_address24 h
    rw [readOperands, h1, h2, h3]
  | mtr | rtm | ldlr | ldur =>
    obtain ⟨h1, h2⟩ := regImm_of_address24 h
    rw [readOperands, h1, h2]
  | pshr | popr =>
    obtain ⟨h1, -⟩ := regImm_of_address24 h
    rw [readOperands, h1]
  | rtio | iotr =>
    obtain ⟨h1, h2, -⟩ := bytes_of_address24 h
    rw [readOperands, h1, h2]

/-- Settles O1: the encoded word has the instruction's opcode byte and its operands in the fields of its shape. -/
theorem decodeOfEncodeIsTheInstruction : Obligations.DecodeOfEncodeIsTheInstruction := fun i =>
  have ⟨hop, hbits⟩ := Laws.EncodeFields.halves i
  decode_eq_ok.mpr ⟨hop, readOperands_of_operandBits hbits⟩

/-- An opcode names one mnemonic: instructions with the same opcode differ in their operands only (rule R111). -/
theorem eq_readOperands_of_opcode_eq {i j : Instr} (h : i.opcode = j.opcode) : i = readOperands (encode i) j := by
  have hj : byte0 (encode i) = j.opcode := (Laws.EncodeFields.halves i).1.trans h
  exact Except.ok.inj ((decodeOfEncodeIsTheInstruction i).symm.trans (decode_of_opcode hj))

/-! ### The bits a shape ignores -/

section
variable {w w' : Word}

/-- Words agree on the bits from `n` up exactly if they are the same number there. -/
theorem agree_from (n : Nat) :
    (w ^^^ w') &&& (BitVec.allOnes 32 <<< n) = 0 ↔ w.toNat / 2 ^ n = w'.toNat / 2 ^ n := by
  have hlt : (w ^^^ w').toNat / 2 ^ n * 2 ^ n < 2 ^ 32 := (Nat.div_mul_le_self _ _).trans_lt (w ^^^ w').isLt
  rw [← BitVec.shiftLeft_ushiftRight, BitVec.toNat_eq, BitVec.toNat_shiftLeft, BitVec.toNat_ushiftRight,
    Nat.shiftLeft_eq, Nat.shiftRight_eq_div_pow, Nat.mod_eq_of_lt hlt, BitVec.toNat_xor, Nat.xor_div_two_pow]
  simp

theorem agree_on_opcode : (w ^^^ w') &&& 0xFF000000 = 0 ↔ byte0 w = byte0 w' := by
  refine (agree_from 24).trans ?_
  rw [BitVec.toNat_eq, byte0_toNat, byte0_toNat]
  omega

theorem agree_on_reg : (w ^^^ w') &&& 0xFFFF0000 = 0 ↔ byte0 w = byte0 w' ∧ byte1 w = byte1 w' := by
  refine (agree_from 16).trans ?_
  simp only [BitVec.toNat_eq, byte0_toNat, byte1_toNat]
  omega

theorem agree_on_regPort :
    (w ^^^ w') &&& 0xFFFFFF00 = 0 ↔ byte0 w = byte0 w' ∧ byte1 w = byte1 w' ∧ byte2 w = byte2 w' := by
  refine (agree_from 8).trans ?_
  simp only [BitVec.toNat_eq, byte0_toNat, byte1_toNat, byte2_toNat]
  omega

theorem agree_on_target :
    (w ^^^ w') &&& 0xFFFFFFFF = 0 ↔ byte0 w = byte0 w' ∧ address24Of w = address24Of w' := by
  refine (agree_from 0).trans ?_
  simp only [BitVec.toNat_eq, byte0_toNat, address24Of_toNat]
  omega

theorem agree_on_regImm :
    (w ^^^ w') &&& 0xFFFFFFFF = 0 ↔ byte0 w = byte0 w' ∧ byte1 w = byte1 w' ∧ imm16Of w = imm16Of w' := by
  refine (agree_from 0).trans ?_
  simp only [BitVec.toNat_eq, byte0_toNat, byte1_toNat, imm16Of_toNat]
  omega

theorem agree_on_bytes :
    (w ^^^ w') &&& 0xFFFFFFFF = 0 ↔
      byte0 w = byte0 w' ∧ byte1 w = byte1 w' ∧ byte2 w = byte2 w' ∧ byte3 w = byte3 w' := by
  refine (agree_from 0).trans ?_
  simp only [BitVec.toNat_eq, byte0_toNat, byte1_toNat, byte2_toNat, byte3_toNat]
  omega

/-- Words agree on the bits that `i`'s shape uses exactly if they have the same opcode byte and the same operands in the
shape's fields (rule R113). -/
theorem agree_on_usedMask {i : Instr} :
    (w ^^^ w') &&& usedMask i = 0 ↔ byte0 w = byte0 w' ∧ readOperands w i = readOperands w' i := by
  cases i with
  | nop | huc | rsr | rir | sei | cli => simpa [readOperands, usedMask] using agree_on_opcode
  | buc | bic | bsr => simpa [readOperands, usedMask] using agree_on_target
  | seto | tsti | imtr | rtim | andr | orr | xorr | srlr | sllr => simpa [readOperands, usedMask] using agree_on_bytes
  | mtr | rtm | ldlr | ldur => simpa [readOperands, usedMask] using agree_on_regImm
  | pshr | popr => simpa [readOperands, usedMask] using agree_on_reg
  | rtio | iotr => simpa [readOperands, usedMask] using agree_on_regPort

end

/-- Settles O2: the opcode byte and the operand fields that decide the answer are the bits of the mask. -/
theorem ignoredBitsDoNotMatter : Obligations.IgnoredBitsDoNotMatter := by
  intro w w' i h
  obtain ⟨hop, hi⟩ := decode_eq_ok.mp h
  have hiff : (w ^^^ w') &&& usedMask i = 0 ↔ decode w' = .ok i := by
    rw [agree_on_usedMask, decode_eq_ok, hop, hi, eq_comm (a := i.opcode), eq_comm (a := i)]
  refine ⟨hiff, fun hagree idtLength address => ?_⟩
  rw [decodeTyped, decodeTyped, h, hiff.mp hagree]

/-- Settles O4: the decoder evaluated at each word. -/
theorem specWordsDecode : Obligations.SpecWordsDecode := by
  unfold Obligations.SpecWordsDecode
  decide

/-! ### Successors and edges -/

/-- Rule R115: the kind of every opcode but those of the control transfers and huc. -/
theorem control_eq_fallThrough {i : Instr}
    (h : i.opcode = 0 ∨ i.opcode = 4 ∨ i.opcode = 5 ∨ 9 ≤ i.opcode.toNat) : i.control = .fallThrough := by
  cases i with
  | huc | buc | bic | bsr | rsr | rir => simp [Instr.opcode] at h
  | _ => rfl

/-- Settles O5: the control kind is read off the opcode, and it names the successors. -/
theorem staticSuccessors : Obligations.StaticSuccessors := by
  intro idtLength a i
  refine ⟨fun h => ?_, fun h => ?_, ?_, ?_, ?_, fun h => ?_, fun h => ?_⟩
  · have hc : i.control = .fallThrough := control_eq_fallThrough h
    exact ⟨hc, by rw [typedInstr, hc, successorsOf]⟩
  · obtain rfl : i = .huc := eq_readOperands_of_opcode_eq (j := .huc) h
    exact ⟨rfl, rfl⟩
  · rintro t rfl
    exact ⟨rfl, rfl⟩
  · rintro t rfl
    exact ⟨rfl, rfl⟩
  · rintro t rfl
    exact ⟨rfl, rfl⟩
  · obtain rfl : i = .rsr := eq_readOperands_of_opcode_eq (j := .rsr) h
    exact ⟨rfl, rfl⟩
  · obtain rfl : i = .rir := eq_readOperands_of_opcode_eq (j := .rir) h
    exact ⟨rfl, rfl⟩

/-- Rule R122: only buc, bic and bsr can have a successor other than the next address, and it is their target. -/
theorem hasEdge_typedInstr (idtLength a : Nat) (i : Instr) :
    (typedInstr idtLength a i).hasEdge = true ↔
      ∃ t : Address24, (i = .buc t ∨ i = .bic t ∨ i = .bsr t) ∧ t.toNat ≠ a + 1 := by
  cases i with
  | buc t | bic t | bsr t =>
    simp [TypedInstr.hasEdge, typedInstr, successorsOf, Instr.control, Instr.operands, Operands.target?]
  | _ => simp [TypedInstr.hasEdge, typedInstr, successorsOf, Instr.control]

section
variable {idtLength a : Nat} {i : Instr} {t : Address24}

/-- Rule R116: the destination of a target. -/
theorem dest_typedInstr (hi : i = .buc t ∨ i = .bic t ∨ i = .bsr t) :
    (typedInstr idtLength a i).dest = some (classifyDest idtLength t) := by
  rcases hi with rfl | rfl | rfl <;> rfl

/-- Rule R123 for a target in the IDT: the call test is not reached. -/
theorem destKind_eq_irq {d : TypedInstr} {n : Nat} (he : d.hasEdge = true) (hd : d.dest = some (.idt n)) :
    d.destKind = some .irq := by
  rw [TypedInstr.destKind, if_pos he, hd]

/-- Rule R123 for a target in the code region. -/
theorem destKind_of_code {d : TypedInstr} {n : Nat} (he : d.hasEdge = true) (hd : d.dest = some (.code n)) :
    d.destKind = some (if d.mnemonic = .bsr then .routine else .generic) := by
  rw [TypedInstr.destKind, if_pos he, hd, apply_ite some]

/-- Of the instructions with a target, bsr is the one of that mnemonic. -/
theorem mnemonic_eq_bsr (hi : i = .buc t ∨ i = .bic t ∨ i = .bsr t) : i.mnemonic = .bsr ↔ i = .bsr t := by
  rcases hi with rfl | rfl | rfl <;> simp [Instr.mnemonic]

end

/-- Settles O6: the edge is the target's, and the destination is classified by `IDT_LENGTH` first. -/
theorem edgesAndDestinations : Obligations.EdgesAndDestinations := by
  intro idtLength a i
  refine ⟨hasEdge_typedInstr idtLength a i, fun t hi hne => ?_⟩
  have he : (typedInstr idtLength a i).hasEdge = true := (hasEdge_typedInstr idtLength a i).mpr ⟨t, hi, hne⟩
  have hd : (typedInstr idtLength a i).dest = some (classifyDest idtLength t) := dest_typedInstr hi
  refine ⟨fun hlt => ?_, fun hle => ?_⟩
  · rw [classifyDest, if_pos hlt] at hd
    exact ⟨hd, destKind_eq_irq he hd, by rw [jumpTarget]; omega⟩
  · rw [classifyDest, if_neg (by omega)] at hd
    refine ⟨⟨_, hd, by rw [jumpTarget]; omega⟩, ?_⟩
    rw [destKind_of_code he hd]
    simp only [← mnemonic_eq_bsr hi]
    rfl

end Sys2Proof.Proofs

/-! Program text: the codec of a word, the decode run line by line, and the RAM image of a text. -/

namespace Sys2Proof.Proofs

open Sys2Proof Sys2Proof.Machine Sys2Proof.Safety

/-! ### Hex digits -/

/-- A written digit is a digit, and no white space. -/
theorem hexDigit_spec : ∀ n < 16, hexValue (hexDigit n) = some n ∧ isTextSpace (hexDigit n) = false := by decide

theorem hexNumber_append (ds es : List Char) (acc : Nat) :
    hexNumber acc (ds ++ es) = (hexNumber acc ds).bind (hexNumber · es) := by
  induction ds generalizing acc with
  | nil => rfl
  | cons d ds ih =>
    rw [List.cons_append, hexNumber, hexNumber]
    cases hexValue d with
    | none => rfl
    | some v => exact ih _

/-- The digits of a number read back as its value below `16 ^ count`. -/
theorem hexNumber_hexDigits (count n : Nat) : hexNumber 0 (hexDigits count n) = some (n % 16 ^ count) := by
  induction count generalizing n with
  | zero => simp [hexDigits, hexNumber, Nat.mod_one]
  | succ count ih =>
    have hd : hexValue (hexDigit (n % 16)) = some (n % 16) := (hexDigit_spec _ (Nat.mod_lt _ (by decide))).1
    have hval : 16 * (n / 16 % 16 ^ count) + n % 16 = n % 16 ^ (count + 1) := by
      rw [Nat.pow_succ', Nat.mod_mul]; omega
    rw [hexDigits, hexNumber_append, ih, Option.bind_some, hexNumber, hd]
    simp only [hexNumber, hval]

theorem length_hexDigits (count n : Nat) : (hexDigits count n).length = count := by
  induction count generalizing n with
  | zero => rfl
  | succ count ih => rw [hexDigits, List.length_append, ih, List.length_singleton]

theorem hexDigits_noSpace (count n : Nat) : ∀ c ∈ hexDigits count n, isTextSpace c = false := by
  induction count generalizing n with
  | zero => simp [hexDigits]
  | succ count ih =>
    intro c hc
    rcases List.mem_append.mp hc with hc | hc
    · exact ih _ c hc
    · rw [List.mem_singleton.mp hc]
      exact (hexDigit_spec _ (Nat.mod_lt _ (by decide))).2

/-! ### Trimming -/

/-- Leading white space is dropped up to the first character of the text. -/
theorem dropWhile_spaces {pre l : List Char} (hpre : ∀ c ∈ pre, isTextSpace c = true)
    (hl : ∀ c ∈ l, isTextSpace c = false) (hne : l ≠ []) (post : List Char) :
    (pre ++ (l ++ post)).dropWhile isTextSpace = l ++ post := by
  obtain ⟨c, cs, rfl⟩ := List.exists_cons_of_ne_nil hne
  rw [List.dropWhile_append_of_pos hpre, List.cons_append, List.dropWhile_cons_of_neg]
  simp [hl c]

/-- A text without white space is what trimming leaves of it with white space around it (rule R124). -/
theorem trimLine_spaces {pre l post : List Char} (hpre : ∀ c ∈ pre, isTextSpace c = true)
    (hl : ∀ c ∈ l, isTextSpace c = false) (hne : l ≠ []) (hpost : ∀ c ∈ post, isTextSpace c = true) :
    trimLine (pre ++ (l ++ post)) = l := by
  have hback : (post.reverse ++ (l.reverse ++ [])).dropWhile isTextSpace = l.reverse ++ [] :=
    dropWhile_spaces (by simpa using hpost) (by simpa using hl) (by simpa using hne) []
  rw [trimLine, dropWhile_spaces hpre hl hne, List.reverse_append]
  simpa using congrArg List.reverse hback

theorem trimLine_of_noSpace {l : List Char} (hl : ∀ c ∈ l, isTextSpace c = false) (hne : l ≠ []) : trimLine l = l := by
  simpa using trimLine_spaces (pre := []) (post := []) (by simp) hl hne (by simp)

/-! ### The word codec -/

theorem length_wordText (w : Word) : (wordText w).length = 8 := length_hexDigits 8 w.toNat

theorem wordText_noSpace (w : Word) : ∀ c ∈ wordText w, isTextSpace c = false := hexDigits_noSpace 8 w.toNat

/-- A line that trims to a word's digits parses to the word (rule R124). -/
theorem parseWord_of_trimLine {line : List Char} {w : Word} (h : trimLine line = wordText w) :
    parseWord line = .ok w := by
  have hnum : hexNumber 0 (wordText w) = some (w.toNat % 2 ^ 32) := hexNumber_hexDigits 8 w.toNat
  simp only [parseWord, h, length_wordText, if_true, hnum, Nat.mod_eq_of_lt w.isLt, BitVec.ofNat_toNat,
    BitVec.setWidth_eq]

/-- A line that trims to a text of another length than 8 is malformed (rule R124). -/
theorem parseWord_of_length_ne {line : List Char} (h : (trimLine line).length ≠ 8) :
    parseWord line = .error (.malformedWord (trimLine line)) := if_neg h

/-- Settles O7: trimming leaves the digits, and the digits are the word's number. -/
theorem wordTextReadsBack : Obligations.WordTextReadsBack := by
  intro w
  have hne : wordText w ≠ [] := List.ne_nil_of_length_eq_add_one (length_wordText w)
  have hnine : ∀ c ∈ wordText w ++ ['0'], isTextSpace c = false := fun c hc =>
    (List.mem_append.mp hc).elim (wordText_noSpace w c) fun h0 => List.mem_singleton.mp h0 ▸ rfl
  have htrim : trimLine (wordText w ++ ['0']) = wordText w ++ ['0'] := trimLine_of_noSpace hnine (by simp)
  refine ⟨parseWord_of_trimLine (trimLine_of_noSpace (wordText_noSpace w) hne), parseWord_of_trimLine ?_, ?_⟩
  · exact trimLine_spaces (pre := [' ', '\t']) (post := ['\r', '\n']) (by simp [isTextSpace]) (wordText_noSpace w) hne
      (by simp [isTextSpace])
  · have herr := parseWord_of_length_ne (line := wordText w ++ ['0']) (by simp [htrim, length_wordText])
    rwa [htrim] at herr

/-! ### The decode run, line by line -/

/-- The lines, none of them blank, decode one by one to the instructions, at addresses from `address` on (rule R125). -/
inductive DecodesTo (idtLength : Nat) : (address : Nat) → List (List Char) → List TypedInstr → Prop
  | nil (address : Nat) : DecodesTo idtLength address [] []
  | cons {address : Nat} {l : List Char} {ls : List (List Char)} {d : TypedInstr} {ds : List TypedInstr}
      (head : decodeLine idtLength address l = .ok d) (tail : DecodesTo idtLength (address + 1) ls ds) :
      DecodesTo idtLength address (l :: ls) (d :: ds)

section
variable {idtLength address : Nat} {ls : List (List Char)} {ds : List TypedInstr}

theorem DecodesTo.length_eq (h : DecodesTo idtLength address ls ds) : ds.length = ls.length := by
  induction h with
  | nil => rfl
  | cons _ _ ih => rw [List.length_cons, List.length_cons, ih]

/-- A decoded line stands at the address it was decoded at. -/
theorem decodeLine_address {l : List Char} {d : TypedInstr} (h : decodeLine idtLength address l = .ok d) :
    d.address = address := by
  obtain ⟨w, -, hw⟩ := decodeLine_eq_ok.mp h
  exact decodeTyped_address hw

theorem DecodesTo.addresses (h : DecodesTo idtLength address ls ds) :
    ds.map (·.address) = List.range' address ds.length := by
  induction h with
  | nil => rfl
  | cons head _ ih => rw [List.map_cons, ih, decodeLine_address head, List.length_cons, List.range'_succ]

theorem DecodesTo.getElem? (h : DecodesTo idtLength address ls ds) {k : Nat} {d : TypedInstr} (hk : ds[k]? = some d) :
    ∃ l, ls[k]? = some l ∧ decodeLine idtLength (address + k) l = .ok d := by
  induction h generalizing k with
  | nil => simp at hk
  | cons head _ ih =>
    cases k with
    | zero =>
      obtain rfl := Option.some.inj hk
      exact ⟨_, rfl, head⟩
    | succ k =>
      obtain ⟨l, hl, hd⟩ := ih hk
      exact ⟨l, hl, by rwa [Nat.add_assoc, Nat.add_comm 1] at hd⟩

end

theorem nonBlank_append (ls ls' : List (List Char)) : nonBlank (ls ++ ls') = nonBlank ls ++ nonBlank ls' :=
  List.filter_append ..

theorem nonBlank_cons_of_blank {l : List Char} (h : (trimLine l).isEmpty) (ls : List (List Char)) :
    nonBlank (l :: ls) = nonBlank ls := by rw [nonBlank_cons, if_pos h]

theorem nonBlank_cons_of_not_blank {l : List Char} (h : ¬ (trimLine l).isEmpty) (ls : List (List Char)) :
    nonBlank (l :: ls) = l :: nonBlank ls := by rw [nonBlank_cons, if_neg h]

/-- How a decode run from line number `ln` and address `address` on ends: after the non-blank lines of `before` it stopped
at the line between `before` and `rest` (rules R125, R126). -/
structure StopsAt (idtLength ln address : Nat) (lines before : List (List Char)) (line : List Char)
    (rest : List (List Char)) (run : List TypedInstr × List Diagnostic) : Prop where
  lines_eq  : lines = before ++ line :: rest
  not_blank : ¬ (trimLine line).isEmpty
  decoded   : DecodesTo idtLength address (nonBlank before) run.1
  stopped   : ∃ e, decodeLine idtLength (address + run.1.length) line = .error e ∧
    run.2 = [{ lineNumber := ln + before.length, rawText := line, error := e }]

/-- The two ends of a decode run: every non-blank line decoded, or stopped at one (rule R125). -/
theorem decodeLines_cases (idtLength ln address : Nat) (lines : List (List Char)) :
    (DecodesTo idtLength address (nonBlank lines) (decodeLines idtLength ln address lines).1 ∧
      (decodeLines idtLength ln address lines).2 = []) ∨
    ∃ before line rest,
      StopsAt idtLength ln address lines before line rest (decodeLines idtLength ln address lines) := by
  induction lines generalizing ln address with
  | nil => exact .inl ⟨.nil address, rfl⟩
  | cons l ls ih =>
    rw [decodeLines_cons]
    by_cases hb : (trimLine l).isEmpty
    · rw [if_pos hb, nonBlank_cons_of_blank hb]
      refine (ih (ln + 1) address).imp id ?_
      rintro ⟨before, line, rest, rfl, hline, hdec, e, he, hdiag⟩
      exact ⟨l :: before, line, rest, rfl, hline, by rwa [nonBlank_cons_of_blank hb], e, he,
        by rw [hdiag, List.length_cons, Nat.add_assoc, Nat.add_comm 1]⟩
    · rw [if_neg hb, nonBlank_cons_of_not_blank hb]
      cases hd : decodeLine idtLength address l with
      | error e => exact .inr ⟨[], l, ls, rfl, hb, .nil address, e, hd, rfl⟩
      | ok d =>
        refine (ih (ln + 1) (address + 1)).imp (fun ⟨hdec, hdiag⟩ => ⟨.cons hd hdec, hdiag⟩) ?_
        rintro ⟨before, line, rest, rfl, hline, hdec, e, he, hdiag⟩
        refine ⟨l :: before, line, rest, rfl, hline, ?_, e, ?_, ?_⟩
        · rw [nonBlank_cons_of_not_blank hb]
          exact .cons hd hdec
        · rwa [List.length_cons, Nat.add_comm _ 1, ← Nat.add_assoc]
        · rw [hdiag, List.length_cons, Nat.add_assoc, Nat.add_comm 1]

/-- The IDT entries and the code of a run are its decoded lines (rule R125). -/
theorem idt_append_instructions (lines : List (List Char)) (idtLength : Nat) :
    (decodeRun lines idtLength).idt ++ (decodeRun lines idtLength).instructions =
      (decodeLines idtLength 1 0 lines).1 := List.take_append_drop ..

/-- Whatever a run decoded is decoded from a first part of the non-blank lines, in order. -/
theorem exists_decodesTo (idtLength ln address : Nat) (lines : List (List Char)) :
    ∃ done todo, nonBlank lines = done ++ todo ∧
      DecodesTo idtLength address done (decodeLines idtLength ln address lines).1 := by
  rcases decodeLines_cases idtLength ln address lines with ⟨hdec, -⟩ | ⟨before, line, rest, h⟩
  · exact ⟨_, [], (List.append_nil _).symm, hdec⟩
  · exact ⟨_, _, by rw [h.lines_eq, nonBlank_append], h.decoded⟩

/-- Settles O8: the IDT is the first part of the decoded lines, and the run ended in one of its two ways. -/
theorem decodeRunAddresses : Obligations.DecodeRunAddresses := by
  intro lines idtLength decoded hdecoded
  rw [idt_append_instructions] at hdecoded
  subst hdecoded
  have hidt : (decodeRun lines idtLength).idt.length = min idtLength (decodeLines idtLength 1 0 lines).1.length :=
    List.length_take
  have hcode : (decodeRun lines idtLength).instructions = (decodeLines idtLength 1 0 lines).1.drop idtLength := rfl
  have hdiags : (decodeRun lines idtLength).diagnostics = (decodeLines idtLength 1 0 lines).2 := rfl
  obtain ⟨_, _, -, haddr⟩ := exists_decodesTo idtLength 1 0 lines
  refine ⟨by rw [haddr.addresses, List.range_eq_range'], hidt ▸ Nat.min_le_left .., fun hne => ?_, ?_⟩
  · rw [hcode, Ne, List.drop_eq_nil_iff] at hne
    omega
  rw [hdiags]
  rcases decodeLines_cases idtLength 1 0 lines with ⟨hdec, hnone⟩ | ⟨before, line, rest, rfl, hline, hdec, e, he, hone⟩
  · simp [hnone, hdec.length_eq]
  · have hlt : (decodeLines idtLength 1 0 (before ++ line :: rest)).1.length <
        (nonBlank (before ++ line :: rest)).length := by
      rw [hdec.length_eq, nonBlank_append, nonBlank_cons_of_not_blank hline, List.length_append, List.length_cons]
      omega
    rw [hone]
    refine ⟨le_rfl, by simp [hlt.ne], fun d hd => ?_⟩
    obtain rfl := List.mem_singleton.mp hd
    rw [Nat.zero_add] at he
    simp only [Nat.add_sub_cancel_left]
    exact ⟨by omega, by simp, by simpa using hline, by simp [hdec.length_eq], he⟩

/-! ### The RAM image of a text -/

/-- A text's image is, one for one, what its non-blank lines parse to (rule R127). -/
theorem imageOfLines_eq_ok {lines : List (List Char)} {image : List Word} :
    imageOfLines lines = .ok image ↔ (nonBlank lines).map parseWord = image.map .ok := by
  induction lines generalizing image with
  | nil => simp [imageOfLines, eq_comm]
  | cons l ls ih =>
    rw [imageOfLines]
    by_cases hb : (trimLine l).isEmpty
    · rw [if_pos hb, nonBlank_cons_of_blank hb, ih]
    · rw [if_neg hb, nonBlank_cons_of_not_blank hb, List.map_cons]
      cases hw : parseWord l with
      | error e => cases image <;> simp
      | ok w =>
        cases image with
        | nil => cases imageOfLines ls <;> simp
        | cons v vs =>
          rw [List.map_cons, List.cons.injEq, ← ih]
          cases imageOfLines ls <;> simp

/-- Settles O9: a decoded line is a non-blank line, whose word stands at the same place in the image. -/
theorem imageMatchesDecodeRun : Obligations.ImageMatchesDecodeRun := by
  intro lines
  refine ⟨fun image => imageOfLines_eq_ok, fun idtLength k d hk => ?_⟩
  rw [idt_append_instructions] at hk
  obtain ⟨done, todo, hlines, hdec⟩ := exists_decodesTo idtLength 1 0 lines
  obtain ⟨line, hline, hd⟩ := hdec.getElem? hk
  obtain ⟨w, hw, hd⟩ := decodeLine_eq_ok.mp hd
  have hnth : (nonBlank lines)[k]? = some line := by
    rw [hlines, List.getElem?_append_left (List.getElem?_eq_some_iff.mp hline).1, hline]
  refine ⟨line, w, hnth, hw, by rwa [Nat.zero_add] at hd, fun image himage => ?_⟩
  have hword := congrArg (·[k]?) (imageOfLines_eq_ok.mp himage)
  simpa [hnth, hw] using hword

end Sys2Proof.Proofs

/-! The answers of the I/O instructions on a port that exists, and of the immediate loads. -/

namespace Sys2Proof.Proofs

open Sys2Proof Sys2Proof.Machine Sys2Proof.Safety

/-! ### Ports that exist -/

/-- A port that exists passes its check under `isa` (rule R72). -/
theorem underIsa_checkPort_ok {p : PortIndex} {s : State} (h : s.cfg.execProfile = .isa)
    (hp : p.toNat < s.cfg.ioPorts) (k : PortIndex → Result) : underIsa s (need (checkPort s p) k) = k p := by
  rw [underIsa_isa h, checkPort_eq_ok.mpr ⟨hp, rfl⟩, need_ok]

/-- An output port that exists holds what is written to it (rule R43). -/
theorem outPort_writeOutPort_self {r : Regs} {p : PortIndex} (hp : p.toNat < r.ioOut.length) (v : Byte) :
    outPort (writeOutPort r p v) p = v := by
  simp [outPort, hp]

/-- A write to an output port leaves the others and their number alone (rule R43). -/
theorem otherPorts_writeOutPort (r : Regs) (p : PortIndex) (v : Byte) : OtherPorts p r (writeOutPort r p v) :=
  ⟨List.length_set, fun _ hn => List.getElem?_set_ne hn.symm⟩

/-- Writing one output port and advancing changes nothing beside the ports and `pc` (rules R43, R150). -/
theorem frame_stage_advance_writeOutPort (p : PortIndex) (v : Byte) (s : State) :
    Frame [.ioOut] [] [] s (stage (advance (writeOutPort s.cur p v)) none s) where
  sp _ := rfl
  sr _ := rfl
  intr _ := rfl
  sintr _ := rfl
  ioOut hno := absurd (List.mem_singleton.mpr rfl) hno
  x _ _ := rfl
  mem _ _ := rfl

/-- Writing `sr` and advancing changes nothing beside `sr` and `pc` (rules R38, R150). -/
theorem frame_stage_advance_sr (v : Byte) (s : State) :
    Frame [.sr] [] [] s (stage (advance { s.cur with sr := v }) none s) where
  sp _ := rfl
  sr hno := absurd (List.mem_singleton.mpr rfl) hno
  intr _ := rfl
  sintr _ := rfl
  ioOut _ := rfl
  x _ _ := rfl
  mem _ _ := rfl

/-- An instruction that answers one write to an output port that exists and `pc + 1` has the whole effect its rule gives:
the port holds the value, and everything else is as it was. -/
theorem exec_effect_of_writeOutPort {i : Instr} {s : State} {p : PortIndex} {v : Byte}
    (hp : p.toNat < s.cur.ioOut.length)
    (h : exec i s = .next (stage (advance (writeOutPort s.cur p v)) none s)) :
    ∃ t, exec i s = .next t ∧ t.nxt.pc = s.cur.pc + 1 ∧ outPort t.nxt p = v ∧ OtherPorts p s.cur t.nxt ∧
      Frame [.ioOut] [] [] s t ∧ OnlyStages s t :=
  ⟨_, h, rfl, outPort_writeOutPort_self hp v, otherPorts_writeOutPort s.cur p v,
    frame_stage_advance_writeOutPort p v s, onlyStages_stage _ _ s⟩

/-- Settles O43: seto answers one port write, of `setBits` bit by bit. -/
theorem setoSetsTheMaskedBits : Obligations.SetoSetsTheMaskedBits := by
  intro p mask value s h hp hlen
  obtain ⟨t, ht, hpc, hport, hrest⟩ :=
    exec_effect_of_writeOutPort (hlen ▸ hp) (i := .seto p mask value) (underIsa_checkPort_ok h hp _)
  exact ⟨t, ht, hpc, fun k => by rw [hport, setBits_getLsbD], hrest⟩

/-- rtio under `isa` writes the low byte of its register to its port (rule R184). -/
theorem exec_rtio_of_isa {a : RegIndex} {p : PortIndex} {s : State} {v : Word} (h : s.cfg.execProfile = .isa)
    (hp : p.toNat < s.cfg.ioPorts) (ha : regCell s.cur a = .value v) :
    exec (.rtio a p) s = .next (stage (advance (writeOutPort s.cur p (lowByte v))) none s) := by
  show execRtio a p s = _
  rw [execRtio, readReg_eq_ok.mpr ha, need_ok, underIsa_checkPort_ok h hp]

/-- Settles O46: rtio answers one port write, of the register's low byte. -/
theorem rtioWritesTheLowByte : Obligations.RtioWritesTheLowByte := by
  intro a p s v h hp hlen ha
  obtain ⟨t, ht, hpc, hport, hrest⟩ := exec_effect_of_writeOutPort (hlen ▸ hp) (exec_rtio_of_isa h hp ha)
  exact ⟨t, ht, hpc, by rw [hport, lowByte, BitVec.toNat_setWidth], hrest⟩

/-- Settles O47: iotr answers one register write, of the port's value. -/
theorem iotrReadsTheInputPort : Obligations.IotrReadsTheInputPort := by
  intro a p s h hp
  obtain ⟨t, ht, hpc, hcell, hrest⟩ := exec_effect_of_writeReg (i := .iotr a p) (underIsa_checkPort_ok h hp _)
  exact ⟨t, _, ht, hpc, hcell, BitVec.toNat_setWidth_of_le (by decide), hrest⟩

/-- Settles O44: tsti answers `testResult` in `sr`, which is 1 exactly if the masked bits agree. -/
theorem tstiComparesTheMaskedBits : Obligations.TstiComparesTheMaskedBits := by
  intro p mask value s h hp
  have ht : exec (.tsti p mask value) s =
      .next (stage (advance { s.cur with sr := testResult (inPort s p) mask value }) none s) :=
    underIsa_checkPort_ok h hp _
  refine ⟨_, ht, rfl, testResult_eq_one.mpr, fun ⟨k, hk, hne⟩ => ?_, frame_stage_advance_sr _ s, onlyStages_stage _ _ s⟩
  exact (testResult_cases (inPort s p) mask value).resolve_right fun h1 => hne (testResult_eq_one.mp h1 k hk)

/-! ### Immediates -/

/-- ldur under `isa` puts the immediate above the lower half its register held (rule R221). -/
theorem exec_ldur_of_isa {a : RegIndex} (n : Imm16) {s : State} {v : Word} (h : s.cfg.execProfile = .isa)
    (ha : regCell s.cur a = .value v) :
    exec (.ldur a n) s = .next (stage (advance (writeReg s.cur a (withUpperHalf n v))) none s) := by
  show execLdur a n s = _
  rw [execLdur, underIsa_isa h, readReg_eq_ok.mpr ha, need_ok]

/-- Settles O57: each answers one register write, of the zero-extended immediate or of the two halves. -/
theorem ldlrAndLdurLoadHalves : Obligations.LdlrAndLdurLoadHalves := by
  intro a n s h
  constructor
  · obtain ⟨t, ht, hpc, hcell, hrest⟩ := exec_effect_of_writeReg (i := .ldlr a n) (underIsa_isa h _)
    exact ⟨t, _, ht, hpc, hcell, BitVec.toNat_setWidth_of_le (by decide), hrest⟩
  · intro v ha
    obtain ⟨t, ht, hpc, hcell, hrest⟩ := exec_effect_of_writeReg (exec_ldur_of_isa n h ha)
    exact ⟨t, _, ht, hpc, hcell, withUpperHalf_toNat n v, hrest⟩

end Sys2Proof.Proofs

/-! Control transfer and the stack: what an instruction that jumps, pushes or pops answers and leaves alone, where it
traps, and that a pop reads back what the matching push wrote; and the traps of an interrupt entry. -/

namespace Sys2Proof.Proofs

open Sys2Proof Sys2Proof.Machine Sys2Proof.Safety

/-! ### Jumps -/

/-- A target is reached as it is written, never reduced (rule R151). -/
theorem targetPc_toNat (target : Address24) : (targetPc target).toNat = target.toNat :=
  BitVec.toNat_setWidth_of_le (by decide)

/-- Moving `pc` changes nothing else. -/
theorem frame_stage_pc (pc : Word) (s : State) : Frame [] [] [] s (stage { s.cur with pc := pc } none s) where
  sp _ := rfl
  sr _ := rfl
  intr _ := rfl
  sintr _ := rfl
  ioOut _ := rfl
  x _ _ := rfl
  mem _ _ := rfl

/-- An instruction that answers a new `pc` has the whole effect its rule gives: everything else is as it was. -/
theorem exec_effect_of_jump {i : Instr} {s : State} {pc : Word}
    (h : exec i s = .next (stage { s.cur with pc := pc } none s)) :
    ∃ t, exec i s = .next t ∧ t.nxt.pc = pc ∧ Frame [] [] [] s t ∧ OnlyStages s t :=
  ⟨_, h, rfl, frame_stage_pc pc s, onlyStages_stage _ _ s⟩

/-- Settles O33: both are the default transition, a jump to `pc + 1`. -/
theorem nopAndHucOnlyAdvance : Obligations.NopAndHucOnlyAdvance := by
  rintro i s (rfl | rfl)
  · exact exec_effect_of_jump rfl
  · exact exec_effect_of_jump rfl

/-- Settles O34: buc answers a jump to its zero-extended target. -/
theorem bucGoesToItsTarget : Obligations.BucGoesToItsTarget := by
  intro target s
  obtain ⟨t, ht, hpc, hrest⟩ := exec_effect_of_jump (i := .buc target) (s := s) rfl
  exact ⟨t, ht, by rw [hpc, targetPc_toNat], hrest⟩

/-- bic under `isa` answers a jump either way: to its target or to `pc + 1` (rule R157). -/
theorem exec_bic_of_isa (target : Address24) {s : State} (h : s.cfg.execProfile = .isa) :
    exec (.bic target) s =
      .next (stage { s.cur with pc := if flagT s.cur.sr then targetPc target else s.cur.pc + 1 } none s) := by
  show execBic target s = _
  rw [execBic, underIsa_isa h]
  cases flagT s.cur.sr
  · rfl
  · rfl

/-- Settles O35: bic answers a jump, whose address `sr.T` selects. -/
theorem bicBranchesOnT : Obligations.BicBranchesOnT := by
  intro target s h
  obtain ⟨t, ht, hpc, hrest⟩ := exec_effect_of_jump (exec_bic_of_isa target h)
  refine ⟨t, ht, fun hT => ?_, fun hT => ?_, hrest⟩
  · rw [hpc, flagT, hT, if_pos rfl, targetPc_toNat]
  · rw [hpc, flagT, hT, if_neg Bool.false_ne_true]

/-! ### Frames of the stack instructions -/

/-- Moving `pc` and `sp` changes nothing else. -/
theorem frame_stage_sp (pc sp : Word) (s : State) :
    Frame [.sp] [] [] s (stage { s.cur with pc := pc, sp := sp } none s) where
  sp hno := absurd (List.mem_singleton.mpr rfl) hno
  sr _ := rfl
  intr _ := rfl
  sintr _ := rfl
  ioOut _ := rfl
  x _ _ := rfl
  mem _ _ := rfl

/-- Moving `pc` and `sp` and staging a word for RAM changes no byte outside that word (rules R46, R152). -/
theorem frame_stage_sp_write (pc sp : Word) (i : Nat) (v : Word) (s : State) :
    Frame [.sp] [] [i] s (stage { s.cur with pc := pc, sp := sp } (some { addr := i, value := v }) s) :=
  { frame_stage_sp pc sp s with
    mem := fun _ ha => readByte_writeWord_of_ne s.ram v (List.ne_of_not_mem_cons ha) }

/-- Moving `sp`, writing one general register and advancing changes nothing else (rule R206). -/
theorem frame_stage_sp_writeReg (sp : Word) (a : RegIndex) (v : Word) (s : State) :
    Frame [.sp] [a] [] s (stage (advance (writeReg { s.cur with sp := sp } a v)) none s) :=
  { frame_stage_sp (s.cur.pc + 1) sp s with
    x := fun _ hi => regCell_writeReg_of_ne { s.cur with sp := sp } v (List.ne_of_not_mem_cons hi) }

/-- Moving `pc` and `sp` and writing the mask changes nothing else (rule R160). -/
theorem frame_stage_sp_intr (pc sp : Word) (intr : Byte) (s : State) :
    Frame [.sp, .intr] [] [] s (stage { s.cur with pc := pc, sp := sp, intr := intr } none s) where
  sp hno := absurd (by decide) hno
  sr _ := rfl
  intr hno := absurd (by decide) hno
  sintr _ := rfl
  ioOut _ := rfl
  x _ _ := rfl
  mem _ _ := rfl

/-! ### Pushes -/

/-- bsr answers a next state exactly if its push does, in both profiles (rules R152, R158). -/
theorem exec_bsr_eq_next {target : Address24} {s t : State} :
    exec (.bsr target) s = .next t ↔
      s.cur.sp.toNat < ramWords ∧ s.cur.sp ≠ 0 ∧
      t = stage { s.cur with pc := targetPc target, sp := s.cur.sp - 1 }
        (some { addr := s.cur.sp.toNat, value := s.cur.pc + 1 }) s := by
  show execBsr target s = _ ↔ _
  rw [execBsr, need_eq_next]
  constructor
  · rintro ⟨⟨r, w⟩, hpush, h⟩
    obtain ⟨hlt, hne, rfl, rfl⟩ := push_eq_ok.mp hpush
    cases h
    exact ⟨hlt, hne, rfl⟩
  · rintro ⟨hlt, hne, rfl⟩
    exact ⟨_, push_eq_ok.mpr ⟨hlt, hne, rfl, rfl⟩, rfl⟩

/-- pshr under `isa` pushes its register's value and advances (rule R205). -/
theorem exec_pshr_of_isa {a : RegIndex} {s : State} {v : Word} (h : s.cfg.execProfile = .isa)
    (ha : regCell s.cur a = .value v) (hlt : s.cur.sp.toNat < ramWords) (hne : s.cur.sp ≠ 0) :
    exec (.pshr a) s =
      .next (stage { s.cur with pc := s.cur.pc + 1, sp := s.cur.sp - 1 }
        (some { addr := s.cur.sp.toNat, value := v }) s) := by
  show execPshr a s = _
  rw [execPshr, underIsa_isa h, readReg_eq_ok.mpr ha, need_ok, push_eq_ok.mpr ⟨hlt, hne, rfl, rfl⟩, need_ok]
  rfl

/-- An instruction that answers a push and a new `pc` has the whole effect its rule gives: the slot at the old `sp`
holds the word, and everything else is as it was. -/
theorem exec_effect_of_push {i : Instr} {s : State} {pc v : Word} (hm : Memory.wf s.ram)
    (h : exec i s = .next (stage { s.cur with pc := pc, sp := s.cur.sp - 1 }
      (some { addr := s.cur.sp.toNat, value := v }) s)) :
    ∃ t, exec i s = .next t ∧ t.nxt.pc = pc ∧ t.nxt.sp = s.cur.sp - 1 ∧
      readWord (commit t).ram s.cur.sp.toNat = v ∧ Frame [.sp] [] [s.cur.sp.toNat] s t ∧ OnlyStages s t :=
  ⟨_, h, rfl, rfl, readWord_commit_stage hm _ _ v, frame_stage_sp_write _ _ _ v s, onlyStages_stage _ _ s⟩

/-- Settles O36: bsr answers a push of `pc + 1` and a jump. -/
theorem bsrPushesTheReturnAddress : Obligations.BsrPushesTheReturnAddress := by
  intro target s hm hlt hne
  obtain ⟨t, ht, hpc, hrest⟩ := exec_effect_of_push hm (exec_bsr_eq_next.mpr ⟨hlt, hne, rfl⟩)
  exact ⟨t, ht, by rw [hpc, targetPc_toNat], hrest⟩

/-- Settles O53: pshr answers a push of its register. -/
theorem pshrPushesTheRegister : Obligations.PshrPushesTheRegister :=
  fun _ _ _ h hm ha hlt hne => exec_effect_of_push hm (exec_pshr_of_isa h ha hlt hne)

/-- bsr, and pshr of a written register under `isa`, trap where their push does (rules R158, R205, R249). -/
theorem exec_eq_fault_of_push {i : Instr} {s : State} {f : Fault}
    (hi : (∃ target, i = .bsr target) ∨
      ∃ a v, i = .pshr a ∧ s.cfg.execProfile = .isa ∧ regCell s.cur a = .value v)
    (hpush : ∀ v, push v s.cur = .error f) : exec i s = .fault f := by
  rcases hi with ⟨target, rfl⟩ | ⟨a, v, rfl, h, ha⟩
  · show execBsr target s = _
    rw [execBsr, hpush, need_error]
  · show execPshr a s = _
    rw [execPshr, underIsa_isa h, readReg_eq_ok.mpr ha, need_ok, hpush, need_error]

/-- Settles O41: both instructions hand on the fault of their push. -/
theorem pushFaults : Obligations.PushFaults := by
  refine fun i s hi => ⟨fun hge => ?_, fun h0 => ?_⟩
  · exact exec_eq_fault_of_push hi fun _ => push_eq_error.mpr (.inl ⟨hge, rfl⟩)
  · exact exec_eq_fault_of_push hi fun _ => push_eq_error.mpr (.inr ⟨h0, by rw [h0]⟩)

/-! ### Pops -/

theorem pop_isa {s : State} (h : s.cfg.execProfile = .isa) : pop s = popIsa s := by rw [pop, h]

theorem pop_literal {s : State} (h : s.cfg.execProfile = .sourceLiteral) : pop s = popLiteral s := by rw [pop, h]

section
variable {s : State} {v : Word} {r : Regs}

/-- rsr resumes at the popped word, in both profiles (rule R159). -/
theorem exec_rsr_of_pop (hpop : pop s = .ok (v, r)) : exec .rsr s = .next (stage { r with pc := v } none s) := by
  show execRsr s = _
  rw [execRsr, hpop, need_ok]

/-- rir under `isa` resumes at the popped word with the saved mask (rules R160, R257). -/
theorem exec_rir_of_popIsa (h : s.cfg.execProfile = .isa) (hpop : popIsa s = .ok (v, r)) :
    exec .rir s = .next (stage { r with pc := v, intr := s.cur.sintr } none s) := by
  show execRir s = _
  rw [execRir, underIsa_isa h, returnFromInterrupt, hpop, need_ok]

/-- popr under `isa` puts the popped word into its register (rule R206). -/
theorem exec_popr_of_popIsa (a : RegIndex) (h : s.cfg.execProfile = .isa) (hpop : popIsa s = .ok (v, r)) :
    exec (.popr a) s = .next (stage (advance (writeReg r a v)) none s) := by
  show execPopr a s = _
  rw [execPopr, underIsa_isa h, hpop, need_ok]

end

/-- The incremented stack pointer does not wrap where a pop succeeds (rule R153). -/
theorem toNat_succ_sp {sp : Word} (h : sp.toNat < ramWords) : (sp + 1).toNat = sp.toNat + 1 := by
  have hbound : sp.toNat < 1024 := h
  bv_omega

/-- Settles O37: rsr answers the profile's pop, with the popped word in `pc`. -/
theorem rsrPopsIntoPc : Obligations.RsrPopsIntoPc := by
  refine fun s => ⟨fun h hlt => ?_, fun h hlt => ?_⟩
  · have hpop := (pop_isa h).trans (popIsa_eq_ok.mpr ⟨hlt, rfl, rfl⟩)
    exact ⟨_, exec_rsr_of_pop hpop, rfl, toNat_succ_sp (Nat.lt_of_succ_lt hlt), frame_stage_sp _ _ s,
      onlyStages_stage _ _ s⟩
  · have hpop := (pop_literal h).trans (popLiteral_eq_ok.mpr ⟨hlt, rfl, rfl⟩)
    exact ⟨_, exec_rsr_of_pop hpop, rfl, toNat_succ_sp hlt, frame_stage_sp _ _ s, onlyStages_stage _ _ s⟩

/-- Settles O38: rir answers the pop, with the popped word in `pc` and the saved mask in `intr`. -/
theorem rirPopsAndRestoresTheMask : Obligations.RirPopsAndRestoresTheMask := fun s h hlt =>
  ⟨_, exec_rir_of_popIsa h (popIsa_eq_ok.mpr ⟨hlt, rfl, rfl⟩), rfl, toNat_succ_sp (Nat.lt_of_succ_lt hlt), rfl,
    frame_stage_sp_intr _ _ _ s, onlyStages_stage _ _ s⟩

/-- Settles O54: popr answers the pop, with the popped word in its register. -/
theorem poprPopsIntoTheRegister : Obligations.PoprPopsIntoTheRegister := fun a s h hlt =>
  ⟨_, exec_popr_of_popIsa a h (popIsa_eq_ok.mpr ⟨hlt, rfl, rfl⟩), rfl, toNat_succ_sp (Nat.lt_of_succ_lt hlt),
    regCell_writeReg_self _ a _, frame_stage_sp_writeReg _ a _ s, onlyStages_stage _ _ s⟩

/-- rsr, rir and popr under `isa` trap where their pop does (rule R249). -/
theorem exec_eq_fault_of_popIsa {i : Instr} {s : State} {f : Fault} (hi : i = .rsr ∨ i = .rir ∨ ∃ a, i = .popr a)
    (h : s.cfg.execProfile = .isa) (hpop : popIsa s = .error f) : exec i s = .fault f := by
  rcases hi with rfl | rfl | ⟨a, rfl⟩
  · show execRsr s = _
    rw [execRsr, pop_isa h, hpop, need_error]
  · show execRir s = _
    rw [execRir, underIsa_isa h, returnFromInterrupt, hpop, need_error]
  · show execPopr a s = _
    rw [execPopr, underIsa_isa h, hpop, need_error]

/-- Settles O42: the instructions hand on the fault of the profile's pop. -/
theorem popFaults : Obligations.PopFaults := by
  refine fun i s => ⟨fun hi h => ⟨fun hsp => ?_, fun hsp hge => ?_⟩, ?_⟩
  · exact exec_eq_fault_of_popIsa hi h (popIsa_eq_error.mpr (.inl ⟨hsp, by rw [hsp]⟩))
  · exact exec_eq_fault_of_popIsa hi h (popIsa_eq_error.mpr (.inr ⟨hsp, hge, rfl⟩))
  · rintro rfl h hge
    show execRsr s = _
    rw [execRsr, pop_literal h, popLiteral_eq_error.mpr ⟨hge, rfl⟩, need_error]

/-! ### A pop after the matching push -/

section
variable {sp : Word} {u : State}

/-- Where a push succeeds, the decremented stack pointer does not wrap (rule R152). -/
theorem toNat_pred_sp (hne : sp ≠ 0) : (sp - 1).toNat = sp.toNat - 1 := by bv_omega

/-- Under `isa` a pop at the depth of a push from `sp` reads the slot the push wrote and restores `sp` (rules R153,
R161). -/
theorem popIsa_after_push (hlt : sp.toNat < ramWords) (hne : sp ≠ 0) (hu : u.cur.sp = sp - 1) :
    popIsa u = .ok (readWord u.ram sp.toNat, { u.cur with sp := sp }) := by
  have hslot : u.cur.sp.toNat + 1 = sp.toNat := by
    rw [hu]
    bv_omega
  exact popIsa_eq_ok.mpr ⟨hslot.trans_lt hlt, by rw [hslot], by rw [hu, BitVec.sub_add_cancel]⟩

/-- Under `source_literal` a pop at the depth of a push from `sp` reads the word below the slot the push wrote and
restores `sp` (rules R153, R161). -/
theorem pop_literal_after_push (h : u.cfg.execProfile = .sourceLiteral) (hlt : sp.toNat < ramWords) (hne : sp ≠ 0)
    (hu : u.cur.sp = sp - 1) : pop u = .ok (readWord u.ram (sp.toNat - 1), { u.cur with sp := sp }) := by
  have hslot : u.cur.sp.toNat = sp.toNat - 1 := by rw [hu, toNat_pred_sp hne]
  rw [pop_literal h]
  exact popLiteral_eq_ok.mpr ⟨by omega, by rw [hslot], by rw [hu, BitVec.sub_add_cancel]⟩

end

/-- Settles O39: under `isa` the pop reads the pushed `pc + 1`; under `source_literal` it reads one word lower, which
the push left alone. -/
theorem rsrAfterBsr : Obligations.RsrAfterBsr := by
  intro target s t hbsr
  obtain ⟨hlt, hne, rfl⟩ := exec_bsr_eq_next.mp hbsr
  refine ⟨fun h hm u hcfg hsp hkept => ?_, fun h => ?_⟩
  · have hpop := (pop_isa (hcfg ▸ h)).trans (popIsa_after_push hlt hne hsp)
    exact ⟨_, exec_rsr_of_pop hpop, hkept.trans (readWord_commit_stage hm _ _ _), rfl⟩
  · have hbelow : s.cur.sp.toNat - 1 ≠ s.cur.sp.toNat := by bv_omega
    exact ⟨_, exec_rsr_of_pop (pop_literal_after_push h hlt hne rfl), readWord_writeWord_of_ne s.ram _ hbelow, rfl⟩

/-- Settles O31: the pop reads the pushed `pc`, and the entry saved the mask in `sintr`. -/
theorem rirUndoesInterruptEntry : Obligations.RirUndoesInterruptEntry := by
  intro s t u n _ henter hisa hsp hsintr hm hkept
  obtain ⟨hlt, hne, rfl⟩ := enterInterrupt_eq_next.mp henter
  exact ⟨_, exec_rir_of_popIsa hisa (popIsa_after_push hlt hne hsp), hkept.trans (readWord_commit_stage hm _ _ _),
    rfl, hsintr⟩

/-! ### An interrupt entry that traps -/

/-- A tick of an unfaulted block that takes a line enters its interrupt and fetches nothing (rules R242, R249). -/
theorem step_of_takenLine {s : State} {n : Nat} (hs : s.fault = none) (hn : takenLine (commit s) = some n) :
    step s = finishTick (commit s) (.irqEntry n) (enterInterrupt n (commit s)) := by
  rw [step, hs]
  show tickCommitted (commit s) = _
  rw [tickCommitted, hn]

/-- A tick whose interrupt entry cannot push records the push's fault on the state it committed (rules R244, R256). -/
theorem step_of_push_error {s : State} {n : Nat} {f : Fault} (hs : s.fault = none)
    (hn : takenLine (commit s) = some n) (hpush : push s.nxt.pc s.nxt = .error f) :
    step s = .next (recordFault (commit s) f (.irqEntry n)) := by
  rw [step_of_takenLine hs hn, enterInterrupt, commit_cur, hpush, need_error, finishTick]

/-- Settles O29: the entry's push traps, and the tick records its fault. -/
theorem interruptEntryFaults : Obligations.InterruptEntryFaults := by
  refine fun s n hs hn => ⟨fun hge => ?_, fun h0 => ?_⟩
  · exact step_of_push_error hs hn (push_eq_error.mpr (.inl ⟨hge, rfl⟩))
  · exact step_of_push_error hs hn (push_eq_error.mpr (.inr ⟨h0, by rw [h0]⟩))

end Sys2Proof.Proofs

/-! The interrupt-enable mask: what an instruction that writes `intr` answers and leaves alone. -/

namespace Sys2Proof.Proofs

open Sys2Proof Sys2Proof.Machine Sys2Proof.Safety

/-- Writing `intr` and advancing changes nothing beside `intr` and `pc` (rules R39, R150). -/
theorem frame_stage_advance_intr (mask : Byte) (s : State) :
    Frame [.intr] [] [] s (stage (advance { s.cur with intr := mask }) none s) where
  sp _ := rfl
  sr _ := rfl
  intr hno := absurd (List.mem_singleton.mpr rfl) hno
  sintr _ := rfl
  ioOut _ := rfl
  x _ _ := rfl
  mem _ _ := rfl

/-- An instruction that answers a new mask and `pc + 1` has the whole effect its rule gives: `intr` is that mask, and
everything else, `sintr` among it, is as it was. -/
theorem exec_effect_of_intr {i : Instr} {s : State} {mask : Byte}
    (h : exec i s = .next (stage (advance { s.cur with intr := mask }) none s)) :
    ∃ t, exec i s = .next t ∧ t.nxt.pc = s.cur.pc + 1 ∧ t.nxt.intr = mask ∧ Frame [.intr] [] [] s t ∧
      OnlyStages s t :=
  ⟨_, h, rfl, rfl, frame_stage_advance_intr mask s, onlyStages_stage _ _ s⟩

/-- Settles O45: each answers one mask write, of all lines enabled or of all disabled. -/
theorem seiAndCliWriteTheMask : Obligations.SeiAndCliWriteTheMask := by
  intro s h
  constructor
  · exact exec_effect_of_intr (i := .sei) (mask := allLinesEnabled) (underIsa_isa h _)
  · exact exec_effect_of_intr (i := .cli) (mask := allLinesDisabled) (underIsa_isa h _)

end Sys2Proof.Proofs

/-! The memory instructions mtr, rtm and rtim on an address inside RAM, and the traps of all four on one outside. -/

namespace Sys2Proof.Proofs

open Sys2Proof Sys2Proof.Machine Sys2Proof.Safety

/-! ### Loads and stores inside RAM -/

/-- mtr under `isa` writes the RAM word at its address to its register (rule R201). -/
theorem exec_mtr_of_isa (a : RegIndex) {n : Imm16} {s : State} (h : s.cfg.execProfile = .isa)
    (hn : n.toNat < ramWords) :
    exec (.mtr a n) s = .next (stage (advance (writeReg s.cur a (readWord s.ram n.toNat))) none s) := by
  show execMtr a n s = _
  rw [execMtr, underIsa_isa h, absoluteAddr_eq_ok.mpr ⟨hn, rfl⟩, need_ok]

/-- Settles O49: mtr answers one register write, of the word at its address. -/
theorem mtrLoadsTheWord : Obligations.MtrLoadsTheWord :=
  fun a _ _ h hn => exec_effect_of_writeReg (exec_mtr_of_isa a h hn)

/-- rtim under `isa` stages its register's value for the word at the sum of its base and index (rule R204). -/
theorem exec_rtim_of_isa {a b c : RegIndex} {s : State} {v vb vc : Word} (h : s.cfg.execProfile = .isa)
    (ha : regCell s.cur a = .value v) (hb : regCell s.cur b = .value vb) (hc : regCell s.cur c = .value vc)
    (hsum : vb.toNat + vc.toNat < ramWords) :
    exec (.rtim a b c) s =
      .next (stage (advance s.cur) (some { addr := vb.toNat + vc.toNat, value := v }) s) := by
  have hpair : readPair s.cur b c = .ok (vb, vc) := readPair_eq_ok.mpr ⟨hb, hc⟩
  have haddr : indexedAddr vb vc = .ok (vb.toNat + vc.toNat) := indexedAddr_eq_ok.mpr ⟨hsum, rfl⟩
  show execRtim a b c s = _
  rw [execRtim, underIsa_isa h, readReg_eq_ok.mpr ha, need_ok, hpair, need_ok, haddr, need_ok]

/-- Advancing and staging a word for RAM changes nothing beside `pc` and the bytes of that word (rules R46, R150). -/
theorem frame_stage_advance_write (i : Nat) (v : Word) (s : State) :
    Frame [] [] [i] s (stage (advance s.cur) (some { addr := i, value := v }) s) :=
  { frame_stage_pc (s.cur.pc + 1) s with
    mem := fun _ ha => readByte_writeWord_of_ne s.ram v (List.ne_of_not_mem_cons ha) }

/-- An instruction that answers one RAM write and `pc + 1` has the whole effect its rule gives: after the commit the word
holds the value, and everything else is as it was. -/
theorem exec_effect_of_store {i : Instr} {s : State} {ea : Nat} {v : Word} (hm : Memory.wf s.ram)
    (h : exec i s = .next (stage (advance s.cur) (some { addr := ea, value := v }) s)) :
    ∃ t, exec i s = .next t ∧ t.nxt.pc = s.cur.pc + 1 ∧ readWord (commit t).ram ea = v ∧ Frame [] [] [ea] s t ∧
      OnlyStages s t :=
  ⟨_, h, rfl, readWord_commit_stage hm _ ea v, frame_stage_advance_write ea v s, onlyStages_stage _ _ s⟩

/-- Settles O50: rtm answers one RAM write, at its immediate address. -/
theorem rtmStoresTheRegister : Obligations.RtmStoresTheRegister := by
  intro a n s v ea h hm ha hn haddr
  obtain ⟨-, rfl⟩ := absoluteAddr_eq_ok.mp haddr
  obtain ⟨t, ht, hpc, hrest⟩ := exec_effect_of_store hm (exec_rtm_of_isa h ha hn)
  exact ⟨t, ht, hpc, rfl, hrest⟩

/-- Settles O52: rtim answers one RAM write, at the sum of its base and index. -/
theorem rtimStoresAtTheSum : Obligations.RtimStoresAtTheSum := by
  intro a b c s v vb vc ea h hm ha hb hc hsum haddr
  obtain ⟨-, rfl⟩ := indexedAddr_eq_ok.mp haddr
  obtain ⟨t, ht, hpc, hrest⟩ := exec_effect_of_store hm (exec_rtim_of_isa h ha hb hc hsum)
  exact ⟨t, ht, hpc, rfl, hrest⟩

/-! ### Addresses outside RAM -/

section
variable {a b c : RegIndex} {n : Imm16} {s : State} {vb vc : Word}

/-- Whatever would be done at an immediate address outside RAM, its check faults first (rule R200). -/
theorem need_absoluteAddr_fault (hn : ramWords ≤ n.toNat) (k : Nat → Result) :
    need (absoluteAddr n) k = .fault (.dataRange n.toNat) := by
  rw [absoluteAddr_eq_error.mpr ⟨hn, rfl⟩, need_error]

/-- Whatever would be done at a sum outside RAM, its check faults first, with the sum unreduced (rule R200). -/
theorem need_indexedAddr_fault (hb : regCell s.cur b = .value vb) (hc : regCell s.cur c = .value vc)
    (hsum : ramWords ≤ vb.toNat + vc.toNat) (k : Nat → Result) :
    need (readPair s.cur b c) (fun bc => need (indexedAddr bc.1 bc.2) k) =
      .fault (.dataRange (vb.toNat + vc.toNat)) := by
  have hpair : readPair s.cur b c = .ok (vb, vc) := readPair_eq_ok.mpr ⟨hb, hc⟩
  rw [hpair, need_ok, indexedAddr_eq_error.mpr ⟨hsum, rfl⟩, need_error]

/-- rtm of a written register goes on to its address check (rules R202, R249). -/
theorem exec_rtm_dataRange (h : s.cfg.execProfile = .isa) (hn : ramWords ≤ n.toNat)
    (ha : regCell s.cur a ≠ .unwritten) : exec (.rtm a n) s = .fault (.dataRange n.toNat) := by
  obtain ⟨v, hv⟩ := exists_readReg_eq_ok ha
  show execRtm a n s = _
  rw [execRtm, underIsa_isa h, hv, need_ok, need_absoluteAddr_fault hn]

/-- rtim of a written register goes on to its base, its index and their sum (rules R204, R249). -/
theorem exec_rtim_dataRange (h : s.cfg.execProfile = .isa) (hb : regCell s.cur b = .value vb)
    (hc : regCell s.cur c = .value vc) (hsum : ramWords ≤ vb.toNat + vc.toNat) (ha : regCell s.cur a ≠ .unwritten) :
    exec (.rtim a b c) s = .fault (.dataRange (vb.toNat + vc.toNat)) := by
  obtain ⟨v, hv⟩ := exists_readReg_eq_ok ha
  show execRtim a b c s = _
  rw [execRtim, underIsa_isa h, hv, need_ok, need_indexedAddr_fault hb hc hsum]

end

/-- Settles O55: mtr and imtr begin with the check of their address, rtm and rtim read their register first. -/
theorem dataAddressFaults : Obligations.DataAddressFaults := by
  intro a b c n s h
  refine ⟨fun hn => ⟨?_, exec_rtm_dataRange h hn⟩, fun vb vc hb hc hsum => ⟨?_, exec_rtim_dataRange h hb hc hsum⟩⟩
  · exact (underIsa_isa h _).trans (need_absoluteAddr_fault hn _)
  · exact (underIsa_isa h _).trans (need_indexedAddr_fault hb hc hsum _)

end Sys2Proof.Proofs

/-! The shift instructions: the amount each mode uses, and each bit of the result. -/

namespace Sys2Proof.Proofs

open Sys2Proof Sys2Proof.Machine

/-- Rule R227 as numbers: only `mask5` reduces the amount. -/
theorem shiftAmount_eq_ite (mode : ShiftMode) (sh : Word) :
    shiftAmount mode sh = if mode = .mask5 then sh.toNat % 32 else sh.toNat := by
  cases mode with
  | saturate => rfl
  | mask5 => rfl

/-- Settles O59: both are `binaryOp` at a shift by `shiftAmount`, whose bits `shiftRight_getLsbD` and
`shiftLeft_getLsbD` give. -/
theorem shiftOperations : Obligations.ShiftOperations := by
  intro a b c s vb sh amount h hb hc hamount
  obtain rfl : amount = shiftAmount s.cfg.shiftMode sh := hamount.trans (shiftAmount_eq_ite _ _).symm
  constructor
  · obtain ⟨t, ht, hpc, hcell, hrest⟩ :=
      exec_effect_of_writeReg (i := .srlr a b c) (binaryOp_of_isa (shiftRight s.cfg.shiftMode) a h hb hc)
    exact ⟨t, _, ht, hpc, hcell, fun k _ => shiftRight_getLsbD _ vb sh k, hrest⟩
  · obtain ⟨t, ht, hpc, hcell, hrest⟩ :=
      exec_effect_of_writeReg (i := .sllr a b c) (binaryOp_of_isa (shiftLeft s.cfg.shiftMode) a h hb hc)
    exact ⟨t, _, ht, hpc, hcell, fun _ hk => shiftLeft_getLsbD _ vb sh hk, hrest⟩

end Sys2Proof.Proofs

/-! The branches of a tick; that each gives a next state, and a precise one where it faults; the first fault of a run;
which interrupt line a tick takes and what taking it leaves; and the traps of unwritten registers. -/

namespace Sys2Proof.Proofs

open Sys2Proof Sys2Proof.Machine Sys2Proof.Safety

/-! ### The branches of a tick -/

/-- A tick of a faulted block gives the block back (rule R244). -/
theorem step_of_faulted {s : State} (hs : s.fault ≠ none) : step s = .next s := by
  unfold step
  split
  · rfl
  · contradiction

section
variable {s : State} (hs : s.fault = none) (hn : takenLine (commit s) = none)
include hs hn

/-- A tick that takes no interrupt and fetches no instruction records why (rules R247, R248). -/
theorem step_of_fetchDecode_error {f : Fault} (hd : fetchDecode (commit s) = .error f) :
    step s = .next (recordFault (commit s) f .none) := by
  rw [step, hs]
  show tickCommitted (commit s) = _
  simp only [tickCommitted, hn, hd]

/-- A tick that takes no interrupt and fetches an instruction executes it (rules R242, R243). -/
theorem step_of_fetchDecode_ok {i : Instr} (hd : fetchDecode (commit s) = .ok i) :
    step s = finishTick (commit s) (lastOf (commit s) i) (exec i (commit s)) := by
  rw [step, hs]
  show tickCommitted (commit s) = _
  simp only [tickCommitted, hn, hd]

end

/-- A fetch outside RAM has no word to decode (rule R247). -/
theorem fetchDecode_of_ge {c : State} (h : ramWords ≤ c.cur.pc.toNat) :
    fetchDecode c = .error (.fetchRange c.cur.pc.toNat) := by
  rw [fetchDecode, fetch, checkAddr_eq_error.mpr ⟨h, rfl⟩]
  rfl

/-- A fetched word whose opcode byte is above 25 gives no instruction (rule R248). -/
theorem fetchDecode_of_opcode_gt {c : State} (hpc : c.cur.pc.toNat < ramWords)
    (hop : 25 < (byte0 (readWord c.ram c.cur.pc.toNat)).toNat) :
    fetchDecode c = .error (.illegalOpcode (byte0 (readWord c.ram c.cur.pc.toNat))) := by
  have hdec := (decodeRefusesOpcodesAbove25 (readWord c.ram c.cur.pc.toNat)).1 hop
  simp only [fetchDecode, fetch_of_lt hpc, hdec]

/-- Settles O14: the tick fetches the word at the staged `pc` and ends with its instruction's answer. -/
theorem stepRunsTheDecodedInstruction : Obligations.StepRunsTheDecodedInstruction := by
  intro s i hs hn hpc hdec
  have hstep := step_of_fetchDecode_ok hs hn (fetchDecode_eq_ok.mpr ⟨hpc, hdec⟩)
  refine ⟨fun t ht => ?_, fun f hf => ?_⟩
  · rw [hstep, ht]
    rfl
  · rw [hstep, hf]
    rfl

/-- Settles O16: the fetch or the decoder answers the fault, and the tick records it. -/
theorem fetchAndDecodeFaults : Obligations.FetchAndDecodeFaults := by
  refine fun s hs hn => ⟨fun hge => ?_, fun hpc hop => ?_⟩
  · exact ⟨_, _, step_of_fetchDecode_error hs hn (fetchDecode_of_ge hge), rfl, rfl, rfl, rfl⟩
  · exact ⟨_, _, step_of_fetchDecode_error hs hn (fetchDecode_of_opcode_gt hpc hop), rfl, rfl, rfl, rfl⟩

/-! ### No refusal -/

/-- The answer is a next state or a fault. -/
def NotRefused (o : Result) : Prop := ∀ r, o ≠ .refused r

theorem NotRefused.next (t : State) : NotRefused (.next t) := nofun

theorem NotRefused.need {α : Type} {x : Except Fault α} {k : α → Result} (h : ∀ v, NotRefused (k v)) :
    NotRefused (need x k) := fun r e =>
  have ⟨v, _, hk⟩ := need_eq_refused.mp e
  h v r hk

theorem NotRefused.underIsa {s : State} {e : Result} (h : NotRefused e) : NotRefused (underIsa s e) := by
  rcases underIsa_cases s e with ⟨_, e'⟩ | ⟨_, e'⟩ <;> rw [e']
  · exact h
  · exact .next _

theorem enterInterrupt_notRefused (n : Nat) (s : State) : NotRefused (enterInterrupt n s) := .need fun _ => .next _

/-- No instruction is refused: each stages its result once its checks, if it has any, have passed (rules R162, R243). -/
theorem exec_notRefused (i : Instr) (s : State) : NotRefused (exec i s) := by
  cases i with
  | nop | huc | buc _ => exact .next _
  | bic t =>
    refine .underIsa ?_
    split <;> exact .next _
  | bsr _ | rsr => exact .need fun _ => .next _
  | sei | cli | ldlr _ _ => exact .underIsa (.next _)
  | rtm _ _ | imtr _ _ _ | pshr _ | rtio _ _ => exact .underIsa (.need fun _ => .need fun _ => .next _)
  | rtim _ _ _ => exact .underIsa (.need fun _ => .need fun _ => .need fun _ => .next _)
  | _ => exact .underIsa (.need fun _ => .next _)

/-- The end of a tick makes a next state of both answers (rule R242, phase 5). -/
theorem exists_finishTick_eq_next {o : Result} (ho : NotRefused o) (c : State) (l : LastInstr) :
    ∃ t, finishTick c l o = .next t := by
  cases o with
  | next t => exact ⟨_, rfl⟩
  | fault f => exact ⟨_, rfl⟩
  | refused r => exact absurd rfl (ho r)

theorem exists_step_eq_next (s : State) : ∃ t, step s = .next t := by
  by_cases hs : s.fault = none
  · cases hn : takenLine (commit s) with
    | some n =>
      rw [step_of_takenLine hs hn]
      exact exists_finishTick_eq_next (enterInterrupt_notRefused n _) _ _
    | none =>
      cases hd : fetchDecode (commit s) with
      | error f => exact ⟨_, step_of_fetchDecode_error hs hn hd⟩
      | ok i =>
        rw [step_of_fetchDecode_ok hs hn hd]
        exact exists_finishTick_eq_next (exec_notRefused i _) _ _
  · exact ⟨s, step_of_faulted hs⟩

/-- Settles O15: every branch of a tick answers, as no interrupt entry and no instruction is refused. -/
theorem everyTickGivesANextState : Obligations.EveryTickGivesANextState :=
  ⟨exists_step_eq_next, exec_notRefused⟩

/-! ### Faults -/

/-- Settles O17: of the two ends of a tick only the record of a fault on the committed state leaves one, and there the
block is stuck. -/
theorem faultsArePreciseAndSticky : Obligations.FaultsArePreciseAndSticky := by
  intro s t r hs h hr
  have hstuck : step t = .next t := step_of_faulted (by simp [hr])
  obtain ⟨l, -, ⟨q, w, -, rfl⟩ | ⟨f, rfl⟩⟩ := step_stages hs h
  · cases hs.symm.trans hr
  · cases hr
    exact ⟨rfl, rfl, rfl, rfl, rfl, rfl, rfl, rfl, hstuck⟩

/-! ### The first fault of a run -/

/-- A run goes on from where its first step leads. -/
theorem run_succ {M : Host.Core} {s t : M.State} (h : M.step s = .next t) (k : Nat) :
    M.run (k + 1) s = M.run k t := by
  rw [Host.Core.run, h]

/-- A faulted block stays as it is in every run (rule R244). -/
theorem run_of_faulted {s : State} (hs : s.fault ≠ none) (k : Nat) : Host.Core.run core k s = .next s := by
  induction k with
  | zero => rfl
  | succ k ih => rw [run_succ (M := core) (step_of_faulted hs), ih]

theorem safeRun_zero {s : State} (hs : s.fault = none) : SafeRun 0 s := by
  intro n hn
  obtain rfl : n = 0 := by omega
  exact ⟨s, rfl, hs⟩

theorem safeRun_succ {s t : State} (hs : s.fault = none) (h : step s = .next t) {k : Nat} (ht : SafeRun k t) :
    SafeRun (k + 1) s := by
  intro n hn
  cases n with
  | zero => exact ⟨s, rfl, hs⟩
  | succ n =>
    rw [run_succ (M := core) h]
    exact ht n (by omega)

/-- Settles O26, by induction on the number of ticks: the first tick faults, or the rest of the run decides. -/
theorem runsAreSafeUntilTheFirstFault : Obligations.RunsAreSafeUntilTheFirstFault := by
  intro k
  induction k with
  | zero => exact fun s hs => .inl (safeRun_zero hs)
  | succ k ih =>
    intro s hs
    obtain ⟨u, hu⟩ := exists_step_eq_next s
    by_cases hf : u.fault = none
    · rcases ih u hf with hsafe | ⟨n, hn, t, hsafe, ht, hrun⟩
      · exact .inl (safeRun_succ hs hu hsafe)
      · refine .inr ⟨n + 1, by omega, t, safeRun_succ hs hu hsafe, ht, fun m hm => ?_⟩
        obtain ⟨m, rfl⟩ := Nat.exists_eq_add_one_of_ne_zero (Nat.ne_zero_of_lt hm)
        rw [run_succ (M := core) hu, hrun m (by omega)]
    · refine .inr ⟨0, by omega, u, safeRun_zero hs, hf, fun m hm => ?_⟩
      obtain ⟨m, rfl⟩ := Nat.exists_eq_add_one_of_ne_zero (Nat.ne_zero_of_lt hm)
      rw [run_succ (M := core) hu, run_of_faulted hf]

/-! ### Interrupts -/

/-- Settles O27: the line taken is the lowest set bit of `eligible`; below a line with an IDT entry every line has one,
so a lower line is eligible if it is pending and enabled. -/
theorem lowestEligibleLineIsTaken : Obligations.LowestEligibleLineIsTaken := by
  intro c n
  cases hirq : c.cfg.irqModel with
  | absent => simp [takenLine_absent hirq]
  | vectored =>
    rw [takenLine_vectored hirq, lowestSet_eq_some]
    constructor
    · rintro ⟨hn, helig, hlow⟩
      obtain ⟨hpend, henab, hidt⟩ := (eligible_getLsbD c hn).mp helig
      refine ⟨rfl, hn, hidt, hpend, henab, fun m hm ⟨hp, he⟩ => ?_⟩
      have hm' := (eligible_getLsbD c (hm.trans hn)).mpr ⟨hp, he, hm.trans hidt⟩
      simp [hlow m hm] at hm'
    · rintro ⟨-, hn, hidt, hpend, henab, hlow⟩
      refine ⟨hn, (eligible_getLsbD c hn).mpr ⟨hpend, henab, hidt⟩, fun m hm => ?_⟩
      refine Bool.eq_false_iff.mpr fun hm' => ?_
      obtain ⟨hp, he, -⟩ := (eligible_getLsbD c (hm.trans hn)).mp hm'
      exact hlow m hm ⟨hp, he⟩

/-- An interrupt entry changes nothing beside `pc`, `sp`, the two masks and the pushed word (rule R256). -/
theorem frame_stage_entry (pc sp : Word) (intr sintr : Byte) (i : Nat) (v : Word) (l : LastInstr) (s : State) :
    Frame [.sp, .intr, .sintr] [] [i] s
      { stage { s.cur with sp := sp, sintr := sintr, intr := intr, pc := pc } (some { addr := i, value := v }) s with
        lastInstr := l } where
  sp hno := absurd (by decide) hno
  sr _ := rfl
  intr hno := absurd (by decide) hno
  sintr hno := absurd (by decide) hno
  ioOut _ := rfl
  x _ _ := rfl
  mem _ ha := readByte_writeWord_of_ne s.ram v (List.ne_of_not_mem_cons ha)

/-- The vector of a line that a tick takes is its number, as there are 8 lines (rule R253). -/
theorem toNat_vector {c : State} {n : Nat} (h : takenLine c = some n) : (BitVec.ofNat 32 n).toNat = n := by
  obtain ⟨-, hn, -⟩ := (lowestEligibleLineIsTaken c n).mp h
  rw [BitVec.toNat_ofNat]
  omega

/-- A tick whose interrupt entry can push ends with what the entry stages (rules R242, R256). -/
theorem step_of_entry {s : State} {n : Nat} (hs : s.fault = none) (hn : takenLine (commit s) = some n)
    (hlt : s.nxt.sp.toNat < ramWords) (hne : s.nxt.sp ≠ 0) :
    step s = .next
      { stage { s.nxt with sp := s.nxt.sp - 1, sintr := s.nxt.intr, intr := 0, pc := BitVec.ofNat 32 n }
          (some { addr := s.nxt.sp.toNat, value := s.nxt.pc }) (commit s) with lastInstr := .irqEntry n } := by
  rw [step_of_takenLine hs hn, enterInterrupt_eq_next.mpr ⟨hlt, hne, rfl⟩]
  rfl

/-- Settles O28: the fields are read off what the entry stages. -/
theorem interruptEntrySavesAndVectors : Obligations.InterruptEntrySavesAndVectors := by
  intro s n hs hn hm hlt hne
  exact ⟨_, step_of_entry hs hn hlt hne, rfl, hs, rfl, toNat_vector hn, rfl, rfl, rfl,
    readWord_writeWord_self hm.1 _ _, rfl, rfl, frame_stage_entry _ _ _ _ _ _ _ (commit s)⟩

/-- Settles O30: no line is taken, and neither a recorded fault nor an instruction moves `sintr`. -/
theorem absentModelNeverInterrupts : Obligations.AbsentModelNeverInterrupts := by
  intro s t hirq hs h
  have hnone : takenLine (commit s) = none := takenLine_absent hirq
  rcases step_cases h with ⟨hf, _⟩ | ⟨_, n, hn, _⟩ | ⟨_, _, f, _, rfl⟩ | ⟨_, _, i, _, h⟩
  · exact absurd hs hf
  · cases hnone.symm.trans hn
  · exact ⟨nofun, rfl⟩
  · rcases finishTick_stages (exec_stages i _) h with ⟨r, w, he, rfl⟩ | ⟨f, rfl⟩
    · exact ⟨nofun, he.sintr_eq⟩
    · exact ⟨nofun, rfl⟩

/-! ### Unwritten registers -/

section
variable {a b c : RegIndex} {s : State}

/-- Whatever an instruction would do with its register, an unwritten one faults under `isa` (rule R246). -/
theorem underIsa_readReg_fault (h : s.cfg.execProfile = .isa) (ha : regCell s.cur a = .unwritten)
    (k : Word → Result) : underIsa s (need (readReg s.cur a) k) = .fault (.unwrittenReg a) := by
  rw [underIsa_isa h, readReg_eq_error.mpr ⟨ha, rfl⟩, need_error]

/-- The instructions that read `regB` and `regC` hand on the fault of that read, rtim once it has read `regA` (rule
R249). -/
theorem exec_eq_fault_of_readPair {i : Instr} {f : Fault} (h : s.cfg.execProfile = .isa)
    (hi : i = .imtr a b c ∨ i = .andr a b c ∨ i = .orr a b c ∨ i = .xorr a b c ∨ i = .srlr a b c ∨
      i = .sllr a b c ∨ (i = .rtim a b c ∧ regCell s.cur a ≠ .unwritten))
    (hpair : readPair s.cur b c = .error f) : exec i s = .fault f := by
  have hfirst (k : Word × Word → Result) : underIsa s (need (readPair s.cur b c) k) = .fault f := by
    rw [underIsa_isa h, hpair, need_error]
  rcases hi with rfl | rfl | rfl | rfl | rfl | rfl | ⟨rfl, ha⟩
  iterate 6 exact hfirst _
  obtain ⟨v, hv⟩ := exists_readReg_eq_ok ha
  show execRtim a b c s = _
  rw [execRtim, hv, need_ok, hfirst]

end

/-- Settles O60: five instructions begin with the read of `regA`; the others hand on the fault of the pair, `regB`
first. -/
theorem unwrittenRegisterFaults : Obligations.UnwrittenRegisterFaults := by
  refine fun a b c n p s h => ⟨fun ha => ?_, fun i hi => ⟨fun hb => ?_, fun hb hc => ?_⟩⟩
  · exact ⟨underIsa_readReg_fault h ha _, underIsa_readReg_fault h ha _, underIsa_readReg_fault h ha _,
      underIsa_readReg_fault h ha _, underIsa_readReg_fault h ha _⟩
  · exact exec_eq_fault_of_readPair h hi (readPair_eq_error.mpr (.inl ⟨hb, rfl⟩))
  · exact exec_eq_fault_of_readPair h hi (readPair_eq_error.mpr (.inr ⟨hb, hc, rfl⟩))

end Sys2Proof.Proofs

/-! Reset with an image, field by field, and its invariant; and where a run under a schedule of host moves ends. -/

namespace Sys2Proof.Proofs

open Sys2Proof Sys2Proof.Machine Sys2Proof.Safety

/-! ### Reset with an image -/

/-- An image that fits is loaded (rule R280). -/
theorem resetWith_of_le {image : List Word} (h : image.length ≤ ramWords) (c : Config) (s : State) :
    resetWith c image s = .next (resetState c image s.ioIn s.irqPending) :=
  if_pos (decide_eq_true h)

/-- A longer image is refused (rules R127, R280). -/
theorem resetWith_of_gt {image : List Word} (h : ramWords < image.length) (c : Config) (s : State) :
    resetWith c image s = .refused (.imageTooLong image.length) :=
  if_neg (by simpa [imageWellFormed] using h)

theorem resetWith_eq_next {c : Config} {image : List Word} {s t : State} :
    resetWith c image s = .next t ↔
      image.length ≤ ramWords ∧ t = resetState c image s.ioIn s.irqPending := by
  rcases Nat.lt_or_ge ramWords image.length with h | h
  · simp [resetWith_of_gt h, h]
  · simp [resetWith_of_le h, h, eq_comm]

/-- An image loaded from word `k` on leaves the words below `k` alone. -/
theorem readWord_loadImage_of_lt (image : List Word) {j k : Nat} (h : j < k) (m : Memory) :
    readWord (loadImage k image m) j = readWord m j := by
  induction image generalizing k m with
  | nil => rfl
  | cons w rest ih => rw [loadImage, ih (by omega), readWord_writeWord_of_ne m w (by omega)]

/-- An image that fits, loaded from word `k` on, stands there word for word; beyond it RAM is as it was. -/
theorem readWord_loadImage {m : Memory} (hm : Memory.wf m) (image : List Word) {k : Nat}
    (hk : k + image.length ≤ ramWords) (i : Nat) :
    readWord (loadImage k image m) (k + i) = image.getD i (readWord m (k + i)) := by
  induction image generalizing k m i with
  | nil => rfl
  | cons w rest ih =>
    rw [List.length_cons] at hk
    rw [loadImage]
    cases i with
    | zero => exact (readWord_loadImage_of_lt rest (by omega) _).trans (readWord_writeWord_self hm.1 k w)
    | succ i =>
      rw [show k + (i + 1) = k + 1 + i by omega, ih (writeWord_wf hm (by omega) w) (by omega),
        readWord_writeWord_of_ne m w (by omega), List.getD_cons_succ]

theorem regCell_reset (c : Config) (i : RegIndex) :
    regCell (Regs.reset c) i = if c.regReset = .zero then .value 0 else .unwritten := by
  cases h : c.regReset with
  | zero => simp [regCell_reset_of_zero h]
  | unwritten => simp [regCell, Regs.reset, h]

/-- `IDT_LENGTH` fits in `pc` (rule R6, decision D34). -/
theorem toNat_pc_reset {c : Config} (h : c.wellFormed = true) : (Regs.reset c).pc.toNat = c.idtLength := by
  have hle : c.idtLength ≤ 1024 := of_decide_eq_true h
  exact Nat.mod_eq_of_lt (by omega)

/-- Settles O10: RAM is the image loaded into zero words, and both register copies are `Regs.reset`. -/
theorem resetWritesEveryField : Obligations.ResetWritesEveryField := by
  refine fun c image s hc => ⟨fun hgt => resetWith_of_gt hgt c s, fun hle => ?_⟩
  refine ⟨_, resetWith_of_le hle c s, fun i _ => ?_, rfl, ?_, rfl, rfl, rfl⟩
  · have hread := readWord_loadImage nil_wf image (k := 0) (by omega) i
    rwa [Nat.zero_add, readWord_nil] at hread
  · rintro _ (rfl | rfl) <;>
      exact ⟨toNat_pc_reset hc, rfl, rfl, rfl, rfl, regCell_reset c, rfl⟩

theorem length_fitPorts (count : Nat) (held : List Byte) : (fitPorts count held).length = count := by
  rw [fitPorts, List.length_map, List.length_range]

/-- The invariant after a reset with an image that fits (rule R282). -/
theorem blockInv_resetState (c : Config) {image : List Word} (h : image.length ≤ ramWords) (ioIn : List Byte)
    (irqPending : Byte) : BlockInv (resetState c image ioIn irqPending) where
  ram := loadImage_wf nil_wf image (by omega)
  pend := nofun
  cur := regsInv_reset c
  nxt := regsInv_reset c
  inputs := length_fitPorts c.ioPorts ioIn
  precise := nofun

/-- Settles O13: an image that a reset accepts fits. -/
theorem resetWithImageMeetsInvariant : Obligations.ResetWithImageMeetsInvariant := by
  intro c image s t h
  obtain ⟨hle, rfl⟩ := resetWith_eq_next.mp h
  exact blockInv_resetState c hle s.ioIn s.irqPending

/-! ### The status after a tick -/

theorem runStatus_eq_faulted {t : State} {r : FaultRecord} : runStatus t = .faulted r ↔ t.fault = some r := by
  unfold runStatus
  cases t.fault with
  | none => by_cases h : observedHuc t <;> simp [h]
  | some q => simp

theorem runStatus_eq_ended {t : State} : runStatus t = .ended ↔ t.fault = none ∧ observedHuc t = true := by
  unfold runStatus
  cases t.fault with
  | none => simp
  | some q => simp

theorem mnemonic_eq_huc (i : Instr) : i.mnemonic = .huc ↔ i = .huc := by
  cases i <;> simp [Instr.mnemonic]

/-- What a tick records of an instruction shows whether it was a huc (rules R47, R155). -/
theorem observedHuc_of_lastOf {t c : State} {i : Instr} (h : t.lastInstr = lastOf c i) :
    observedHuc t = true ↔ i = .huc := by
  unfold observedHuc
  rw [h]
  exact decide_eq_true_iff.trans (mnemonic_eq_huc i)

/-- A tick that ends the run took no interrupt and executed a huc (rule R295). -/
theorem fetched_huc_of_ended {s t : State} (hs : s.fault = none) (h : step s = .next t) (ht : runStatus t = .ended) :
    takenLine (commit s) = none ∧ fetchDecode (commit s) = .ok .huc := by
  obtain ⟨hfault, hhuc⟩ := runStatus_eq_ended.mp ht
  rcases step_cases h with ⟨hf, _⟩ | ⟨_, n, _, h⟩ | ⟨_, _, f, _, rfl⟩ | ⟨_, hn, i, hd, h⟩
  · exact absurd hs hf
  · rcases finishTick_eq_next.mp h with ⟨u, _, rfl⟩ | ⟨f, _, rfl⟩
    · cases hhuc
    · cases hfault
  · cases hfault
  · rcases finishTick_eq_next.mp h with ⟨u, _, rfl⟩ | ⟨f, _, rfl⟩
    · obtain rfl := (observedHuc_of_lastOf (c := commit s) rfl).mp hhuc
      exact ⟨hn, hd⟩
    · cases hfault

/-- A huc falls through, so its tick records no fault and ends the run (rule R155). -/
theorem ended_of_fetched_huc {s t : State} (hs : s.fault = none) (h : step s = .next t)
    (hn : takenLine (commit s) = none) (hd : fetchDecode (commit s) = .ok .huc) : runStatus t = .ended := by
  rw [step_of_fetchDecode_ok hs hn hd] at h
  cases h
  exact runStatus_eq_ended.mpr ⟨hs, rfl⟩

/-! ### The end of a run -/

/-- No move of the host answers a fault: a tick records it instead (rule R242). -/
theorem hostStep_ne_fault (m : HostMove) (s : State) (f : Fault) : hostStep m s ≠ .fault f := by
  cases m with
  | reset c image =>
    show resetWith c image s ≠ .fault f
    unfold resetWith
    split <;> nofun
  | tick =>
    obtain ⟨t, ht⟩ := exists_step_eq_next s
    exact fun h => nomatch ht.symm.trans h
  | setIoIn p v =>
    rw [hostStep]
    split <;> nofun
  | setIrq n up =>
    rw [hostStep]
    split
    · nofun
    · split <;> nofun

/-- The result that a tick which gives `u` ends its run with, if it ends it (rule R295). -/
inductive EndsRun (u : State) : RunResult → Prop
  | ended (h : runStatus u = .ended) : EndsRun u (.ended (finalState u))
  | faulted {r : FaultRecord} (h : runStatus u = .faulted r) : EndsRun u (.faulted r u)

theorem EndsRun.afterTick_eq {u : State} {e : RunResult} (h : EndsRun u e) (goOn : State → RunResult) :
    afterTick goOn u = e := by
  cases h with
  | ended h => rw [afterTick, h]
  | faulted h => rw [afterTick, h]

theorem afterTick_cases (u : State) : (∀ goOn, afterTick goOn u = goOn u) ∨ ∃ e, EndsRun u e := by
  cases h : runStatus u with
  | running => exact .inl fun _ => by rw [afterTick, h]
  | ended => exact .inr ⟨_, .ended h⟩
  | faulted r => exact .inr ⟨_, .faulted h⟩

/-- What the first move of a schedule makes of the run: it goes on, the move is a tick that ends it, or the move is
refused (rules R291, R295). -/
theorem runUntilEnd_cons_cases (m : HostMove) (s : State) :
    (∃ t, ∀ rest, runUntilEnd (m :: rest) s = runUntilEnd rest t) ∨
    (∃ u e, m = .tick ∧ step s = .next u ∧ EndsRun u e) ∨
    (∃ r, ∀ rest, runUntilEnd (m :: rest) s = .refused r) := by
  cases h : hostStep m s with
  | next t =>
    by_cases hm : m = .tick
    · subst hm
      rcases afterTick_cases t with hgo | ⟨e, he⟩
      · exact .inl ⟨t, fun rest => (runUntilEnd_tick h rest).trans (hgo _)⟩
      · exact .inr (.inl ⟨t, e, rfl, h, he⟩)
    · exact .inl ⟨t, runUntilEnd_move hm h⟩
  | fault f => exact absurd h (hostStep_ne_fault m s f)
  | refused r => exact .inr (.inr ⟨r, fun rest => by rw [runUntilEnd, h]⟩)

theorem runUntilEnd_of_endsRun {s u : State} {e : RunResult} (h : step s = .next u) (he : EndsRun u e)
    (rest : List HostMove) : runUntilEnd (.tick :: rest) s = e :=
  (runUntilEnd_tick h rest).trans (he.afterTick_eq _)

/-- A run that is unfinished after the moves `before` goes on with the moves that follow them. -/
theorem runUntilEnd_append {before : List HostMove} {s t : State} (h : runUntilEnd before s = .unfinished t)
    (rest : List HostMove) : runUntilEnd (before ++ rest) s = runUntilEnd rest t := by
  induction before generalizing s with
  | nil => cases h; rfl
  | cons m before ih =>
    rcases runUntilEnd_cons_cases m s with ⟨v, hgo⟩ | ⟨u, e, rfl, hstep, he⟩ | ⟨r, href⟩
    · exact (hgo _).trans (ih ((hgo before).symm.trans h))
    · rw [runUntilEnd_of_endsRun hstep he] at h
      subst h
      cases he
    · cases (href before).symm.trans h

/-- A run ends at a tick that ends it, before which it was unfinished (rules R295, R296). -/
theorem runUntilEnd_eq_iff {e : RunResult} (hunfinished : ∀ t, e ≠ .unfinished t) (hrefused : ∀ r, e ≠ .refused r)
    (moves : List HostMove) (s : State) :
    runUntilEnd moves s = e ↔ ∃ before rest t u, moves = before ++ .tick :: rest ∧
      runUntilEnd before s = .unfinished t ∧ step t = .next u ∧ EndsRun u e := by
  constructor
  · intro h
    induction moves generalizing s with
    | nil => exact absurd h.symm (hunfinished s)
    | cons m rest ih =>
      rcases runUntilEnd_cons_cases m s with ⟨v, hgo⟩ | ⟨u, e', rfl, hstep, he⟩ | ⟨r, href⟩
      · obtain ⟨before, rest', t, u, rfl, hbefore, hend⟩ := ih v ((hgo rest).symm.trans h)
        exact ⟨m :: before, rest', t, u, rfl, (hgo before).trans hbefore, hend⟩
      · obtain rfl := (runUntilEnd_of_endsRun hstep he rest).symm.trans h
        exact ⟨[], rest, s, u, rfl, rfl, hstep, he⟩
      · exact absurd (h.symm.trans (href rest)) (hrefused r)
  · rintro ⟨before, rest, t, u, rfl, hbefore, hstep, he⟩
    rw [runUntilEnd_append hbefore, runUntilEnd_of_endsRun hstep he]

/-- A tick that ends the run at a huc ends it in the committed state it executed from, as no tick of a faulted block
ends a run so (rules R244, R295). -/
theorem finalState_of_ended {t u : State} (h : step t = .next u) (hu : runStatus u = .ended) :
    finalState u = committed t := by
  by_cases hf : t.fault = none
  · exact finalState_of_step hf h
  · obtain rfl := eq_of_step_of_faulted hf h
    exact absurd (runStatus_eq_ended.mp hu).1 hf

/-- Settles O25: the status after a tick is read off what the tick recorded, and a schedule's run ends at its first tick
that ends it. -/
theorem runsEndAtHucOrFault : Obligations.RunsEndAtHucOrFault := by
  refine ⟨fun s t hs h => ⟨⟨fun ht => ?_, fun ⟨hn, hpc, hd⟩ => ?_⟩, fun r => runStatus_eq_faulted⟩,
    fun moves s final => ?_, fun moves s u r => ?_⟩
  · obtain ⟨hn, hd⟩ := fetched_huc_of_ended hs h ht
    exact ⟨hn, fetchDecode_eq_ok.mp hd⟩
  · exact ended_of_fetched_huc hs h hn (fetchDecode_eq_ok.mpr ⟨hpc, hd⟩)
  · rw [runUntilEnd_eq_iff (e := .ended final) (fun _ h => nomatch h) (fun _ h => nomatch h)]
    constructor
    · rintro ⟨before, rest, t, u, hmoves, hbefore, hstep, ⟨hu⟩⟩
      have hfinal := finalState_of_ended hstep hu
      exact ⟨before, rest, t, u, hmoves, hbefore, hstep, hu, hfinal, congrArg (·.regs.pc) hfinal⟩
    · rintro ⟨before, rest, t, u, hmoves, hbefore, hstep, hu, rfl, -⟩
      exact ⟨before, rest, t, u, hmoves, hbefore, hstep, finalState_of_ended hstep hu ▸ .ended hu⟩
  · rw [runUntilEnd_eq_iff (e := .faulted r u) (fun _ h => nomatch h) (fun _ h => nomatch h)]
    constructor
    · rintro ⟨before, rest, t, _, hmoves, hbefore, hstep, _ | hu⟩
      exact ⟨before, rest, t, hmoves, hbefore, hstep, hu⟩
    · rintro ⟨before, rest, t, hmoves, hbefore, hstep, hu⟩
      exact ⟨before, rest, t, u, hmoves, hbefore, hstep, .faulted hu⟩

end Sys2Proof.Proofs
